-- ==== Sys2Proof/Word.lean ====
section
/-!
DEFINITION. The units of data: a byte, and a sequence of stream bits (00_scope.md R8, R9). Every other value of the
block is an unsigned natural number (R8) and is a `Nat`.
-/

namespace Sys2Proof

/-- A byte, 8 bits; bit 7 is the most significant (00_scope.md R8). -/
abbrev Byte := BitVec 8

/-- A finite sequence of stream bits `s[0], s[1], ...` in the order they are written and read (00_scope.md R9). -/
abbrev Bits := List Bool

end Sys2Proof
end

