-- ==== Sys2Proof/Syntax.lean ====
section
/-!
DEFINITION. The instructions: one constructor per row of spec/opcode_table.json. LIT and MATCH are the tokens of the
compressed format (30_encoding.md); the others are the bit-stream primitives (40_bitstream.md) and the host's
transactions (43_interface.md), which have no binary encoding.
-/

namespace Sys2Proof

/-- An instruction of the block. Operands are the fields as the spec names them; field widths depend on the
configuration and are checked by `wellFormed`. -/
inductive Instr where
  /-- LIT: a literal byte (30_encoding.md R71, R74) -/
  | lit (b : Byte)
  /-- MATCH: a back-reference; `lenf` is the length field, the match length minus `M` (30_encoding.md R72, R75) -/
  | matchRef (pos lenf : Nat)
  /-- BSW.WRITE(v, n) (40_bitstream.md R101) -/
  | bswWrite (v n : Nat)
  /-- BSW.BYTES (40_bitstream.md R102) -/
  | bswBytes
  /-- BSR.READ(n) (40_bitstream.md R105) -/
  | bsrRead (n : Nat)
  /-- BSR.EOF (40_bitstream.md R107) -/
  | bsrEof
  /-- CFG_WRITE(P, L, M, I, R) (43_interface.md R171): one value per field, so `R` is one bit (10_state.md R20) -/
  | cfgWrite (p l m ini : Nat) (r : BitVec 1)
  /-- CFG_READ() (43_interface.md R172) -/
  | cfgRead
  /-- START_ENCODE(In) (43_interface.md R173) -/
  | startEncode (inp : List Byte)
  /-- START_DECODE(In) (43_interface.md R174) -/
  | startDecode (inp : List Byte)
  /-- STATUS_READ() (43_interface.md R177) -/
  | statusRead
  /-- OUT_READ() (43_interface.md R178) -/
  | outRead
  deriving DecidableEq, Repr

end Sys2Proof
end

