-- ==== Sys2Proof/WellFormed.lean ====
section
/-!
DEFINITION. Which instructions exist under field widths `P` and `L`: the operands of a MATCH fit their fields
(30_encoding.md R72, R75). Every other operand is unrestricted: a literal is any byte (R74), the primitives take any
natural (40_bitstream.md R101, R105), CFG_WRITE checks nothing (43_interface.md R171), and every byte buffer may be
started on (R173, R174).
-/

namespace Sys2Proof

/-- `i` is an instruction under a P-bit position field and an L-bit length field. -/
def wellFormed (P L : Nat) : Instr → Bool
  | .lit _ => true
  | .matchRef pos lenf => decide (pos < 2 ^ P) && decide (lenf < 2 ^ L)
  | .bswWrite _ _ => true
  | .bswBytes => true
  | .bsrRead _ => true
  | .bsrEof => true
  | .cfgWrite _ _ _ _ _ => true
  | .cfgRead => true
  | .startEncode _ => true
  | .startDecode _ => true
  | .statusRead => true
  | .outRead => true

end Sys2Proof
end

