-- ==== Sys2Proof/Decode.lean ====
section
/-!
DEFINITION. Bits, bytes and tokens: the bit order of the stream (00_scope.md R9, 20_memory.md R55, R56), the packing of
bits into bytes (40_bitstream.md R102), the reading of a field (R105), the token decoder (the reads of 42_decoder.md
R151 to R153), and after it the encoder (30_encoding.md R71, R72) and the listing forms (R80).
-/

namespace Sys2Proof

/-- `bits_n(v)`: the low `n` bits of `v`, most significant first (00_scope.md R9, 40_bitstream.md R101). -/
def fieldBits : Nat → Nat → Bits
  | 0, _ => []
  | n + 1, v => v.testBit n :: fieldBits n v

/-- The unsigned number a bit sequence denotes, most significant bit first: the loop `v <- 2*v + s` of
40_bitstream.md R105. -/
def bitsValue (s : Bits) : Nat :=
  s.foldl (fun v b => 2 * v + b.toNat) 0

/-- The stream view of a byte buffer: the bits of each byte, bit 7 first (00_scope.md R9, 20_memory.md R55). -/
def streamBits (buf : List Byte) : Bits :=
  buf.flatMap (fun b => fieldBits 8 b.toNat)

/-- The number of zero bits that complete the final byte of `k` bits (30_encoding.md R70, 40_bitstream.md R102). -/
def padCount (k : Nat) : Nat :=
  (8 - k % 8) % 8

/-- A bit sequence completed to whole bytes with zero bits on the low end of the last byte (40_bitstream.md R102). -/
def padBits (s : Bits) : Bits :=
  s ++ List.replicate (padCount s.length) false

/-- The packed byte buffer of a bit sequence, zero padded (BSW.BYTES, 40_bitstream.md R102). -/
def packBytes (s : Bits) : List Byte :=
  (List.range ((padBits s).length / 8)).map fun j =>
    BitVec.ofNat 8 (bitsValue (((padBits s).drop (8 * j)).take 8))

/-- BSR.READ(n) on the stream bits `s` at cursor `pos`: the value (`none` is EOS) and the cursor afterwards
(40_bitstream.md R105, R106, R108). -/
def readField (s : Bits) (pos n : Nat) : Option Nat × Nat :=
  if s.length < pos + n then (none, s.length)
  else (some (bitsValue ((s.drop pos).take n)), pos + n)

/-- Why no token can be read: the read that met the end of the stream (10_state.md R31, 60_exceptions.md R203). No
other bit sequence is rejected (30_encoding.md R78). -/
inductive Reject where
  /-- fewer than 1 bit is left for the flag (42_decoder.md R151) -/
  | endInFlag
  /-- fewer than 8 bits are left for the literal's byte (42_decoder.md R152) -/
  | endInLiteral
  /-- fewer than P bits are left for the position (42_decoder.md R153) -/
  | endInPosition
  /-- fewer than L bits are left for the length (42_decoder.md R153) -/
  | endInLength
  deriving DecidableEq, Repr

/-- Reading a literal's data field, the flag already read (42_decoder.md R152). -/
def decodeLit (s : Bits) (pos : Nat) : Except Reject (Instr × Nat) :=
  match readField s pos 8 with
  | (none, _) => .error .endInLiteral
  | (some v, pos') => .ok (.lit (BitVec.ofNat 8 v), pos')

/-- Reading a back-reference's two fields, the flag already read (42_decoder.md R153). -/
def decodeMatch (P L : Nat) (s : Bits) (pos : Nat) : Except Reject (Instr × Nat) :=
  match readField s pos P with
  | (none, _) => .error .endInPosition
  | (some p, pos') =>
    match readField s pos' L with
    | (none, _) => .error .endInLength
    | (some f, pos'') => .ok (.matchRef p f, pos'')

/-- The token at stream index `pos` and the index after it, under field widths `P` and `L`: the flag bit selects the
format (30_encoding.md R73, R77, 42_decoder.md R151). -/
def decodeBits (P L : Nat) (s : Bits) (pos : Nat) : Except Reject (Instr × Nat) :=
  match readField s pos 1 with
  | (none, _) => .error .endInFlag
  | (some f, pos') => if f = 1 then decodeLit s pos' else decodeMatch P L s pos'

/-- The token at stream index `pos` of a byte buffer. -/
def decode (P L : Nat) (buf : List Byte) (pos : Nat) : Except Reject (Instr × Nat) :=
  decodeBits P L (streamBits buf) pos

/-- The bits of an instruction (30_encoding.md R71, R72). The primitives and the host's transactions have none
(40_bitstream.md, 43_interface.md: "Encoding: none"). -/
def encode (P L : Nat) : Instr → Option Bits
  | .lit b => some (fieldBits 1 1 ++ fieldBits 8 b.toNat)
  | .matchRef pos lenf => some (fieldBits 1 0 ++ fieldBits P pos ++ fieldBits L lenf)
  | .bswWrite _ _ => none
  | .bswBytes => none
  | .bsrRead _ => none
  | .bsrEof => none
  | .cfgWrite _ _ _ _ _ => none
  | .cfgRead => none
  | .startEncode _ => none
  | .startDecode _ => none
  | .statusRead => none
  | .outRead => none

/-- How many bits an instruction's encoding has: 9 for LIT, `1 + P + L` for MATCH (30_encoding.md R71, R72). -/
def encodedLength (P L : Nat) : Instr → Option Nat
  | .lit _ => some 9
  | .matchRef _ _ => some (1 + P + L)
  | .bswWrite _ _ => none
  | .bswBytes => none
  | .bsrRead _ => none
  | .bsrEof => none
  | .cfgWrite _ _ _ _ _ => none
  | .cfgRead => none
  | .startEncode _ => none
  | .startDecode _ => none
  | .statusRead => none
  | .outRead => none

/-- The concatenated bits of a list of tokens (30_encoding.md R70); an entry without an encoding adds none. -/
def encodeAll (P L : Nat) (is : List Instr) : Bits :=
  is.flatMap (fun i => (encode P L i).getD [])

/-- A form of the listing (30_encoding.md R80). -/
inductive Listing where
  /-- `LIT 0xNN` -/
  | litForm (b : Byte)
  /-- `MATCH p, len`; `len` is the full length -/
  | matchForm (p len : Nat)
  /-- `PAD k` -/
  | padForm (k : Nat)
  /-- `END` -/
  | endForm
  deriving DecidableEq, Repr

/-- Which listing forms are well-formed under `(P, L, M)` (30_encoding.md R80): `0 <= p < 2^P`,
`M <= len <= DMAX = M + 2^L - 1`, `0 <= k <= 7`. -/
def Listing.wellFormed (P L M : Nat) : Listing → Bool
  | .litForm _ => true
  | .matchForm p len => decide (p < 2 ^ P) && decide (M ≤ len) && decide (len ≤ M + 2 ^ L - 1)
  | .padForm k => decide (k ≤ 7)
  | .endForm => true

/-- The bits of a listing form (30_encoding.md R80): a token, zero bits, or none. -/
def Listing.bits (P L M : Nat) : Listing → Bits
  | .litForm b => true :: fieldBits 8 b.toNat
  | .matchForm p len => false :: (fieldBits P p ++ fieldBits L (len - M))
  | .padForm k => List.replicate k false
  | .endForm => []

/-- The position width of the opcode table's own example of a MATCH, `encoding_example_P12_L4` (log entry 10). -/
def tableP : Nat := 12

/-- The length width of the opcode table's own example of a MATCH (log entry 10). -/
def tableL : Nat := 4

/-- The buffer that holds an instruction whose bits the opcode table numbers: bit `k` of `w` is stream bit `k` (the
table's offsets; log entry 9). Bits from `nbits` on are 0, up to the longest token under widths `P` and `L`. -/
def tableBuffer (P L nbits w : Nat) : List Byte :=
  packBytes ((List.range (max 9 (1 + P + L))).map fun k => decide (k < nbits) && w.testBit k)

/-- The instruction the decoder reads from an opcode-table word, under the table example's widths. A row without bits
(`nbits = 0`: a primitive or a transaction) has no encoding to decode. -/
def decodeTableWord (nbits w : Nat) : Option Instr :=
  if nbits = 0 then none
  else
    match decode tableP tableL (tableBuffer tableP tableL nbits w) 0 with
    | .ok (i, _) => some i
    | .error _ => none

end Sys2Proof
end

