-- ==== Sys2Proof/Config.lean ====
section
/-!
DEFINITION. The named parameters of an implementation (00_scope.md R6). They are fixed for an instance: `State` holds
them as plain data and no step changes them, so that every statement holds for all their values. The block has no free
value.
-/

namespace Sys2Proof

/-- How the reuse-mode rejection rule computes a match's end position (41_encoder.md R124). -/
inductive ReuseEnd where
  /-- the index of the match's last byte; the spec's default -/
  | inclusive
  /-- one past the match's last byte, modulo the dictionary size -/
  | exclusive
  deriving DecidableEq, Repr

/-- The named parameters of 00_scope.md R6. `none` says the bound is not set. `BUF_MAP` is not here: the buffers are
handed over in the transaction (log entry 14). -/
structure Params where
  /-- `P_MAX`, the largest legal position_bits -/
  pMax : Option Nat
  /-- `L_MAX`, the largest legal length_bits -/
  lMax : Option Nat
  /-- `IN_MAX`, the longest input buffer START accepts -/
  inMax : Option Nat
  /-- `OUT_MAX`, the longest output buffer -/
  outMax : Option Nat
  /-- `REUSE_END` -/
  reuseEnd : ReuseEnd
  deriving DecidableEq, Repr

/-- The parameters after reset: unbounded and INCLUSIVE, the defaults of 00_scope.md R6 where it names one
(DESIGN CHOICE for the bounds it calls OPEN, log entry 5). -/
def Params.default : Params :=
  { pMax := none, lMax := none, inMax := none, outMax := none, reuseEnd := .inclusive }

end Sys2Proof
end

