-- ==== Sys2Proof/Machine/State.lean ====
section
/-!
DEFINITION. The state of one instance (10_state.md, 20_memory.md), its reasons to stop, and its state after block
reset (70_reset_and_hazards.md R220). Plain data throughout.
-/

namespace Sys2Proof.Machine

/-- The configuration registers CFG0 to CFG4 (10_state.md R20), each of the width its table gives: four naturals and
one bit. CFG_WRITE checks no value (43_interface.md R171); START checks. -/
structure Cfg where
  /-- CFG0 `P`, position_bits (R21) -/
  p : Nat
  /-- CFG1 `L`, length_bits (R22) -/
  l : Nat
  /-- CFG2 `M`, min_match_length (R23) -/
  m : Nat
  /-- CFG3 `I`, initial_dictionary_pos (R24) -/
  i : Nat
  /-- CFG4 `R`, reuse_compressed, one bit: 0 (false) or 1 (true) (R20, R25; log entry 12) -/
  r : BitVec 1
  deriving DecidableEq, Repr

/-- `STATUS.STATE` (10_state.md R29). -/
inductive RunState where
  /-- no operation since reset -/
  | idle
  /-- an operation is taking token steps -/
  | busy
  /-- the last operation has ended and its output is readable -/
  | done
  deriving DecidableEq, Repr

/-- `STATUS.OP` (10_state.md R29). -/
inductive Op where
  /-- none yet -/
  | none
  /-- ENCODE -/
  | encode
  /-- DECODE -/
  | decode
  deriving DecidableEq, Repr

/-- `STATUS.TERM`, why the last operation ended (10_state.md R31). None of them is an error. -/
inductive Term where
  /-- operation running or none yet -/
  | none
  /-- the whole input is encoded -/
  | inputEnd
  /-- end of stream while reading a flag bit -/
  | eosFlag
  /-- end of stream while reading a literal's 8 data bits -/
  | eosLiteral
  /-- end of stream while reading a match's position field -/
  | eosPosition
  /-- end of stream while reading a match's length field -/
  | eosLength
  deriving DecidableEq, Repr

/-- The STATUS register (10_state.md R29). -/
structure Status where
  state : RunState
  op : Op
  term : Term
  deriving DecidableEq, Repr

/-- The dictionary's contents: a list of cells in canonical form, addresses strictly rising and no entry equal to what
an unlisted address reads as (20_memory.md R51). -/
abbrev Memory := List Host.Cell

/-- What the last reading operation handed back: the model's own register (log entry 2). -/
inductive Ret where
  /-- nothing has been read yet -/
  | none
  /-- BSW.BYTES or OUT_READ -/
  | bytes (bs : List Byte)
  /-- BSR.READ: `some v`, or `none` for EOS (60_exceptions.md R201) -/
  | field (r : Option Nat)
  /-- BSR.EOF -/
  | flag (b : Bool)
  /-- CFG_READ -/
  | cfg (c : Cfg)
  /-- STATUS_READ -/
  | status (st : Status)
  deriving DecidableEq, Repr

/-- The host's six transactions and no other (43_interface.md R170). -/
inductive HostOp where
  | cfgWrite (p l m ini : Nat) (r : BitVec 1)
  | cfgRead
  | startEncode (inp : List Byte)
  | startDecode (inp : List Byte)
  | statusRead
  | outRead
  deriving DecidableEq, Repr

/-- What the host does at one step: issue a transaction, or nothing, so that a running operation takes a token step
(43_interface.md R170, R175; log entry 1). -/
inductive HostMove where
  | transact (op : HostOp)
  | pause
  deriving DecidableEq, Repr

/-- One instance of the block. -/
structure State where
  /-- CFG0 to CFG4 (10_state.md R20) -/
  cfg : Cfg
  /-- CFG_VALID (10_state.md R28) -/
  cfgValid : Bool
  /-- STATUS (10_state.md R29) -/
  status : Status
  /-- `W`, the dictionary write cursor (10_state.md R33) -/
  w : Nat
  /-- `IP`, the encoder's input position (10_state.md R34) -/
  ip : Nat
  /-- `Q`, the match pointer (10_state.md R36) -/
  q : Nat
  /-- `BSW.bits`, the bits written so far (10_state.md R37) -/
  bswBits : Bits
  /-- `BSR.pos`, the reader's bit cursor (10_state.md R35) -/
  bsrPos : Nat
  /-- `Out`, the decoder's output (10_state.md R38) -/
  out : List Byte
  /-- `D`, the dictionary (20_memory.md R51) -/
  dict : Memory
  /-- IN, the operation's input buffer (20_memory.md R53) -/
  inp : List Byte
  /-- the named parameters (00_scope.md R6); no step changes them -/
  par : Params
  /-- what the last reading operation handed back (the model's own, log entry 2) -/
  ret : Ret
  /-- the host's moves still to come, next first (the model's own, log entry 1) -/
  schedule : List HostMove
  deriving DecidableEq, Repr

/-- Why the model stops where the spec gives the block no address to access. The block itself raises no exception
(60_exceptions.md R200); neither is raised in a state that meets `State.Inv`. Both are safe. -/
inductive Fault where
  /-- a DICT access at an index outside `0 .. N-1` (20_memory.md R50): raised by LIT and MATCH when the write cursor
  they would store at is no index of the dictionary. Safe. -/
  | dictIndexOutOfRange
  /-- an IN access at an index outside `0 .. n-1` (20_memory.md R50): raised by LIT and MATCH in an ENCODE when the
  input has too few bytes left. Safe. -/
  | inputIndexOutOfRange
  deriving DecidableEq, Repr

/-- The refusals: those of 43_interface.md R182 and, at the end, the model's own. All are safe: a refused instance has
no next state. -/
inductive Refusal where
  /-- no meaning yet for the instruction of this mnemonic; raised by `exec` alone. Safe. -/
  | notModelled (mnemonic : String)
  /-- CFG_WRITE while BUSY (43_interface.md R171). Safe. -/
  | cfgWriteWhileBusy
  /-- START_ENCODE or START_DECODE while BUSY (43_interface.md R173). Safe. -/
  | startWhileBusy
  /-- START or CFG_READ before the first CFG_WRITE (43_interface.md R172, R173). Safe. -/
  | cfgUnwritten
  /-- START under a configuration that is not LEGAL (43_interface.md R173, 60_exceptions.md R205). Safe. -/
  | cfgInconsistent
  /-- START on an input longer than IN_MAX (43_interface.md R173). Safe. -/
  | inputTooLong
  /-- OUT_READ while not DONE (43_interface.md R178). Safe. -/
  | outputNotReady
  /-- a token whose output would be longer than OUT_MAX (43_interface.md R173). Safe. -/
  | outputTooLong
  /-- LIT or MATCH while no operation runs: the model's own, no rule gives a token an effect there (log entry 7).
  Safe. -/
  | tokenOutsideOperation
  /-- MATCH with an operand wider than its field, which is no token (30_encoding.md R72; log entry 7). Safe. -/
  | illFormedToken
  /-- LIT in an ENCODE whose byte is not `In[IP]`, which ENC.LIT takes as its operand (41_encoder.md R127; log entry
  7). Safe. -/
  | literalNotInput
  deriving DecidableEq, Repr

/-- The outcome of a step of the block. -/
abbrev Result := Host.Outcome State Fault Refusal

/-- The state after block reset (70_reset_and_hazards.md R220): IDLE, NONE, NONE, CFG_VALID 0. The spec leaves every
other register unspecified and unobservable; the model names 0, empty or nothing for it (DESIGN CHOICE, log entry 3). -/
def State.reset : State :=
  { cfg := { p := 0, l := 0, m := 0, i := 0, r := 0 }
    cfgValid := false
    status := { state := .idle, op := .none, term := .none }
    w := 0
    ip := 0
    q := 0
    bswBits := []
    bsrPos := 0
    out := []
    dict := []
    inp := []
    par := Params.default
    ret := .none
    schedule := [] }

end Sys2Proof.Machine
end

