-- ==== Sys2Proof/Machine/Flags.lean ====
section
/-!
DEFINITION. The status bits. The block has no condition codes (10_state.md R40): its only status is STATUS and
CFG_VALID. Here are STATUS's codes (R29, R31) and its two transitions (R30), START and `stop`.
-/

namespace Sys2Proof.Machine

/-- The code of `STATUS.STATE` (10_state.md R29). -/
def runStateCode : RunState → Nat
  | .idle => 0
  | .busy => 1
  | .done => 2

/-- The code of `STATUS.OP` (10_state.md R29). -/
def opCode : Op → Nat
  | .none => 0
  | .encode => 1
  | .decode => 2

/-- The code of `STATUS.TERM` (10_state.md R31). -/
def termCode : Term → Nat
  | .none => 0
  | .inputEnd => 1
  | .eosFlag => 2
  | .eosLiteral => 3
  | .eosPosition => 4
  | .eosLength => 5

/-- The TERM cause of the read that met the end of the stream (10_state.md R31, 42_decoder.md R151 to R153). -/
def termOf : Reject → Term
  | .endInFlag => .eosFlag
  | .endInLiteral => .eosLiteral
  | .endInPosition => .eosPosition
  | .endInLength => .eosLength

/-- STATUS right after a START of `op` (43_interface.md R173, R174). -/
def statusStarted (op : Op) : Status :=
  { state := .busy, op := op, term := .none }

/-- STATUS after `stop(cause)` (43_interface.md R176). -/
def statusStopped (st : Status) (cause : Term) : Status :=
  { st with state := .done, term := cause }

/-- The operation that is taking token steps, if one is (10_state.md R29). -/
def activeOp (st : Status) : Op :=
  match st.state with
  | .busy => st.op
  | .idle => .none
  | .done => .none

end Sys2Proof.Machine
end

