-- ==== Sys2Proof/Machine/Operands.lean ====
section
/-!
DEFINITION. The quantities a configuration fixes (00_scope.md R7), which configurations are legal (43_interface.md
R173), and the operand arithmetic of the tokens (30_encoding.md R75, 20_memory.md R52).
-/

namespace Sys2Proof.Machine

/-- `N = 2^P`, the dictionary size (00_scope.md R7). -/
def dictSize (c : Cfg) : Nat := 2 ^ c.p

/-- `CAP = 2^(L-1)`, the longest match the encoder searches for (00_scope.md R7; log entry 16). -/
def searchCap (c : Cfg) : Nat := 2 ^ (c.l - 1)

/-- `FMAX = 2^L - 1`, the largest length-field value (00_scope.md R7). -/
def fieldMax (c : Cfg) : Nat := 2 ^ c.l - 1

/-- `DMAX = M + 2^L - 1`, the longest match a token can denote (00_scope.md R7). -/
def longestMatch (c : Cfg) : Nat := c.m + 2 ^ c.l - 1

/-- A value does not exceed a parameter; a parameter that is not set bounds nothing (00_scope.md R6). -/
def withinBound (bound : Option Nat) (x : Nat) : Bool :=
  match bound with
  | none => true
  | some k => decide (x ≤ k)

/-- `LEGAL` (43_interface.md R173, 60_exceptions.md R205). Its test of `R` always holds of one bit (log entry 12). -/
def legal (par : Params) (c : Cfg) : Bool :=
  decide (1 ≤ c.p) && withinBound par.pMax c.p && decide (1 ≤ c.l) && withinBound par.lMax c.l &&
    decide (1 ≤ c.m) && decide (c.m ≤ 2 ^ c.l - 1) && decide (c.i < 2 ^ c.p) && decide (c.r = 0#1 ∨ c.r = 1#1)

/-- `reuse_compressed` is on (10_state.md R25). -/
def reuse (c : Cfg) : Bool := decide (c.r = 1#1)

/-- A cursor's next value, `(x + 1) mod N` (20_memory.md R52). -/
def cursorNext (c : Cfg) (x : Nat) : Nat := (x + 1) % dictSize c

/-- A match's length from its length field, `lenf + M` (30_encoding.md R75). -/
def matchLength (c : Cfg) (lenf : Nat) : Nat := lenf + c.m

/-- The `len` dictionary bytes at `p`, taken flat, the byte sequence a candidate match compares (00_scope.md R10). -/
def flatRegion (read : Nat → Byte) (p len : Nat) : List Byte :=
  (List.range len).map fun k => read (p + k)

end Sys2Proof.Machine
end

