-- ==== Sys2Proof/Machine/Ops.lean ====
section
/-!
DEFINITION. The named operations over the dictionary, the bit stream and the working registers: every meaning is
written over these. The block has no exception to take and none to return from (60_exceptions.md R200, R208); what ends
an operation is `stop`, and what starts one is `startOperation`.
-/

namespace Sys2Proof.Machine

/-! ### The dictionary -/

/-- What a dictionary cell that is not listed reads as: the byte every cell holds at START (20_memory.md R51). -/
def unlistedByte : Byte := 0

/-- The dictionary's canonical form: addresses strictly rising, no entry equal to `unlistedByte`. -/
def Memory.wf : Memory → Bool
  | [] => true
  | (a, b) :: rest => decide (b ≠ unlistedByte) && rest.all (fun c => decide (a < c.1)) && Memory.wf rest

/-- Every listed cell lies below `n`. -/
def Memory.below (n : Nat) (m : Memory) : Bool :=
  m.all (fun c => decide (c.1 < n))

/-- `D[i]` (00_scope.md R10). -/
def Memory.read : Memory → Nat → Byte
  | [], _ => unlistedByte
  | (a, b) :: rest, i => if i = a then b else Memory.read rest i

/-- `D[i] <- b` (00_scope.md R10), keeping the canonical form. -/
def Memory.write : Memory → Nat → Byte → Memory
  | [], i, b => if b = unlistedByte then [] else [(i, b)]
  | (a, c) :: rest, i, b =>
    if i < a then (if b = unlistedByte then (a, c) :: rest else (i, b) :: (a, c) :: rest)
    else if i = a then (if b = unlistedByte then rest else (i, b) :: rest)
    else (a, c) :: Memory.write rest i b

/-- The index is one of the dictionary's, `0 .. N-1` (20_memory.md R50). -/
def inDict (c : Cfg) (i : Nat) : Bool := decide (i < dictSize c)

/-- The store at the write cursor and its advance, `D[W] <- b; W <- (W + 1) mod N` (10_state.md R33). -/
def storeAtCursor (b : Byte) (s : State) : State :=
  { s with dict := s.dict.write s.w b, w := cursorNext s.cfg s.w }

/-- The reuse store of a MATCH's byte: made at the write cursor under `R = 1` only (10_state.md R25, R33). -/
def reuseStore (b : Byte) (s : State) : State :=
  if reuse s.cfg then storeAtCursor b s else s

/-! ### The bit stream -/

/-- BSW.WRITE(v, n) (40_bitstream.md R101, R103). -/
def writeBits (v n : Nat) (s : State) : State :=
  { s with bswBits := s.bswBits ++ fieldBits n v }

/-- BSW.BYTES() (40_bitstream.md R102). -/
def writtenBytes (s : State) : List Byte :=
  packBytes s.bswBits

/-- BSR.READ(n): the value, `none` for EOS, and the state with the cursor moved (40_bitstream.md R105, R106). -/
def readBits (n : Nat) (s : State) : Option Nat × State :=
  ((readField (streamBits s.inp) s.bsrPos n).1, { s with bsrPos := (readField (streamBits s.inp) s.bsrPos n).2 })

/-- BSR.EOF() (40_bitstream.md R107). -/
def atStreamEnd (s : State) : Bool :=
  decide (s.bsrPos = 8 * s.inp.length)

/-- Hand a result to whoever asked for it (log entry 2). -/
def give (r : Ret) (s : State) : State := { s with ret := r }

/-! ### Starting and ending an operation -/

/-- INIT_OPERATION() (70_reset_and_hazards.md R221); `Q` is left as it is (log entry 11). -/
def initOperation (s : State) : State :=
  { s with dict := [], w := s.cfg.i, ip := 0, bswBits := [], bsrPos := 0, out := [] }

/-- START of `op` on `buf`, once nothing refuses it (43_interface.md R173, R174). -/
def startOperation (op : Op) (buf : List Byte) (s : State) : State :=
  { initOperation s with inp := buf, status := statusStarted op }

/-- What START refuses, in the order of 43_interface.md R173; `none` where it goes ahead. -/
def startRefusal (buf : List Byte) (s : State) : Option Refusal :=
  if s.status.state = .busy then some .startWhileBusy
  else if s.cfgValid = false then some .cfgUnwritten
  else if legal s.par s.cfg = false then some .cfgInconsistent
  else if withinBound s.par.inMax buf.length = false then some .inputTooLong
  else none

/-- START (43_interface.md R173, R174). -/
def start (op : Op) (buf : List Byte) (s : State) : Result :=
  match startRefusal buf s with
  | some r => .refused r
  | none => .next (startOperation op buf s)

/-- `stop(cause)` (00_scope.md R10, 43_interface.md R176). -/
def stop (cause : Term) (s : State) : State :=
  { s with status := statusStopped s.status cause }

/-- The operation's output buffer so far: `BSW.BYTES()` of an ENCODE (41_encoder.md R134), `Out` of a DECODE
(42_decoder.md R159). -/
def outputOf (s : State) : List Byte :=
  match s.status.op with
  | .encode => writtenBytes s
  | .decode => s.out
  | .none => s.out

/-- The output is no longer than OUT_MAX (43_interface.md R173). -/
def outputFits (s : State) : Bool :=
  withinBound s.par.outMax (outputOf s).length

/-- The end of a token: refused where its output would be longer than OUT_MAX (43_interface.md R173; log entry 13). -/
def endToken (s : State) : Result :=
  if outputFits s then .next s else .refused .outputTooLong

/-! ### One byte of a MATCH -/

/-- One iteration of DEC.COPY (42_decoder.md R154). -/
def copyByte (s : State) : State :=
  reuseStore (s.dict.read s.q)
    { s with out := s.out ++ [s.dict.read s.q], q := cursorNext s.cfg s.q }

/-- DEC.COPY(p, len), byte by byte (42_decoder.md R154). -/
def copyMatch (p len : Nat) (s : State) : State :=
  copyByte^[len] { s with q := p }

/-- `In[IP]` (00_scope.md R10), where `IP < n`. -/
def inputByte (s : State) : Byte :=
  s.inp.getD s.ip 0

/-- One iteration of ENC.MATCH's loop: the write-back at `Q`, the reuse store, `IP <- IP + 1` (41_encoder.md R128). -/
def emitByte (s : State) : State :=
  { reuseStore (inputByte s)
      { s with dict := s.dict.write s.q (inputByte s), q := cursorNext s.cfg s.q } with ip := s.ip + 1 }

/-- ENC.MATCH's loop over the matched bytes (41_encoder.md R128). -/
def emitMatch (p len : Nat) (s : State) : State :=
  emitByte^[len] { s with q := p }

end Sys2Proof.Machine
end

