-- ==== Sys2Proof/Machine/BitStream.lean ====
section
/-!
DEFINITION. The bit-stream primitives BSW.WRITE, BSW.BYTES, BSR.READ and BSR.EOF (40_bitstream.md R101 to R108). None
refuses or faults (R110).
-/

namespace Sys2Proof.Machine

/-- BSW.WRITE(v, n) (40_bitstream.md R101). -/
def execBswWrite (v n : Nat) (s : State) : Result :=
  .next (writeBits v n s)

/-- BSW.BYTES() (40_bitstream.md R102). -/
def execBswBytes (s : State) : Result :=
  .next (give (.bytes (writtenBytes s)) s)

/-- BSR.READ(n) (40_bitstream.md R105, R106, R108). -/
def execBsrRead (n : Nat) (s : State) : Result :=
  .next (give (.field (readBits n s).1) (readBits n s).2)

/-- BSR.EOF() (40_bitstream.md R107). -/
def execBsrEof (s : State) : Result :=
  .next (give (.flag (atStreamEnd s)) s)

end Sys2Proof.Machine
end

