-- ==== Sys2Proof/Machine/HostInterface.lean ====
section
/-!
DEFINITION. The host's six transactions (43_interface.md R170 to R178), each with the refusals of its rule.
-/

namespace Sys2Proof.Machine

/-- CFG_WRITE(P, L, M, I, R) (43_interface.md R171). -/
def execCfgWrite (p l m ini : Nat) (r : BitVec 1) (s : State) : Result :=
  if s.status.state = .busy then .refused .cfgWriteWhileBusy
  else .next { s with cfg := { p := p, l := l, m := m, i := ini, r := r }, cfgValid := true }

/-- CFG_READ() (43_interface.md R172). -/
def execCfgRead (s : State) : Result :=
  if s.cfgValid then .next (give (.cfg s.cfg) s) else .refused .cfgUnwritten

/-- START_ENCODE(In) (43_interface.md R173). -/
def execStartEncode (inp : List Byte) (s : State) : Result :=
  start .encode inp s

/-- START_DECODE(In) (43_interface.md R174). -/
def execStartDecode (inp : List Byte) (s : State) : Result :=
  start .decode inp s

/-- STATUS_READ() (43_interface.md R177). -/
def execStatusRead (s : State) : Result :=
  .next (give (.status s.status) s)

/-- OUT_READ() (43_interface.md R178). -/
def execOutRead (s : State) : Result :=
  if s.status.state = .done then .next (give (.bytes (outputOf s)) s) else .refused .outputNotReady

end Sys2Proof.Machine
end

