-- ==== Sys2Proof/Machine/Token.lean ====
section
/-!
DEFINITION. The two tokens, LIT and MATCH. A token means what the running operation does with it: a DECODE executes it
(42_decoder.md R152 to R154), an ENCODE emits it (41_encoder.md R127, R128); log entry 6. The decoder's reads of the
token's fields are the fetch, in Machine/Engine.lean.
-/

namespace Sys2Proof.Machine

/-- What DEC.LIT changes (42_decoder.md R152). -/
def decodedLit (b : Byte) (s : State) : State :=
  storeAtCursor b { s with out := s.out ++ [b] }

/-- DEC.LIT (42_decoder.md R152). -/
def decLit (b : Byte) (s : State) : Result :=
  if inDict s.cfg s.w then endToken (decodedLit b s) else .fault .dictIndexOutOfRange

/-- What ENC.LIT changes (41_encoder.md R127). -/
def emittedLit (b : Byte) (s : State) : State :=
  { storeAtCursor b (writeBits b.toNat 8 (writeBits 1 1 s)) with ip := s.ip + 1 }

/-- ENC.LIT (41_encoder.md R127); its operand is `In[IP]`. -/
def encLit (b : Byte) (s : State) : Result :=
  match s.inp[s.ip]? with
  | none => .fault .inputIndexOutOfRange
  | some c =>
    if c = b then
      (if inDict s.cfg s.w then endToken (emittedLit b s) else .fault .dictIndexOutOfRange)
    else .refused .literalNotInput

/-- LIT. -/
def execLit (b : Byte) (s : State) : Result :=
  match activeOp s.status with
  | .decode => decLit b s
  | .encode => encLit b s
  | .none => .refused .tokenOutsideOperation

/-- The dictionary index a MATCH stores at through the write cursor is in range; under `R = 0` it stores at none
(10_state.md R33). -/
def reuseCursorOk (s : State) : Bool :=
  !reuse s.cfg || inDict s.cfg s.w

/-- DEC.MATCH once its fields are read, and DEC.COPY (42_decoder.md R153, R154). -/
def decMatch (pos lenf : Nat) (s : State) : Result :=
  if reuseCursorOk s then endToken (copyMatch pos (matchLength s.cfg lenf) s) else .fault .dictIndexOutOfRange

/-- What ENC.MATCH changes (41_encoder.md R128). -/
def emittedMatch (pos lenf : Nat) (s : State) : State :=
  emitMatch pos (matchLength s.cfg lenf) (writeBits lenf s.cfg.l (writeBits pos s.cfg.p (writeBits 0 1 s)))

/-- ENC.MATCH (41_encoder.md R128). -/
def encMatch (pos lenf : Nat) (s : State) : Result :=
  if s.ip + matchLength s.cfg lenf ≤ s.inp.length then
    (if reuseCursorOk s then endToken (emittedMatch pos lenf s) else .fault .dictIndexOutOfRange)
  else .fault .inputIndexOutOfRange

/-- MATCH. -/
def execMatchRef (pos lenf : Nat) (s : State) : Result :=
  match activeOp s.status with
  | .decode =>
    if wellFormed s.cfg.p s.cfg.l (.matchRef pos lenf) then decMatch pos lenf s else .refused .illFormedToken
  | .encode =>
    if wellFormed s.cfg.p s.cfg.l (.matchRef pos lenf) then encMatch pos lenf s else .refused .illFormedToken
  | .none => .refused .tokenOutsideOperation

end Sys2Proof.Machine
end

