-- ==== Sys2Proof/Machine/Dispatch.lean ====
section
/-! DEFINITION. One arm per instruction, each one call of its meaning. -/

namespace Sys2Proof.Machine

def exec (i : Instr) (s : State) : Host.Outcome State Fault Refusal :=
  match i with
  | .lit b => Sys2Proof.Machine.execLit b s
  | .matchRef pos lenf => Sys2Proof.Machine.execMatchRef pos lenf s
  | .bswWrite v n => Sys2Proof.Machine.execBswWrite v n s
  | .bswBytes => Sys2Proof.Machine.execBswBytes s
  | .bsrRead n => Sys2Proof.Machine.execBsrRead n s
  | .bsrEof => Sys2Proof.Machine.execBsrEof s
  | .cfgWrite p l m ini r => Sys2Proof.Machine.execCfgWrite p l m ini r s
  | .cfgRead => Sys2Proof.Machine.execCfgRead s
  | .startEncode inp => Sys2Proof.Machine.execStartEncode inp s
  | .startDecode inp => Sys2Proof.Machine.execStartDecode inp s
  | .statusRead => Sys2Proof.Machine.execStatusRead s
  | .outRead => Sys2Proof.Machine.execOutRead s

end Sys2Proof.Machine
end

