-- ==== Sys2Proof/Machine/Search.lean ====
section
/-!
DEFINITION. The encoder's match search (41_encoder.md R122 to R126): candidate lengths from the longest down, the
lowest-offset occurrence of each in the flat dictionary, and the reuse-mode acceptance rule.
-/

namespace Sys2Proof.Machine

/-- The needle: the next `len` input bytes (41_encoder.md R123). -/
def needle (s : State) (len : Nat) : List Byte :=
  (s.inp.drop s.ip).take len

/-- FIND(len) (41_encoder.md R123). -/
def findNeedle (s : State) (len : Nat) : Option Nat :=
  if dictSize s.cfg < len then none
  else (List.range (dictSize s.cfg - len + 1)).find? fun p =>
    decide (flatRegion s.dict.read p len = needle s len)

/-- The end position of an occurrence, as `REUSE_END` says (41_encoder.md R124). -/
def endPosition (par : Params) (c : Cfg) (p len : Nat) : Nat :=
  match par.reuseEnd with
  | .inclusive => (p + len - 1) % dictSize c
  | .exclusive => (p + len) % dictSize c

/-- ACCEPT(p, len) (41_encoder.md R124). -/
def acceptMatch (s : State) (p len : Nat) : Bool :=
  if reuse s.cfg then decide (endPosition s.par s.cfg p len < s.w) else true

/-- `hi`, the longest candidate length (41_encoder.md R122). -/
def longestCandidate (s : State) : Nat :=
  min (searchCap s.cfg) (s.inp.length - s.ip)

/-- The accepted occurrence of one candidate length; a rejected one is not retried at a higher offset (41_encoder.md
R125). -/
def tryLength (s : State) (len : Nat) : Option (Nat × Nat) :=
  match findNeedle s len with
  | none => none
  | some p => if acceptMatch s p len then some (p, len) else none

/-- ENC.SEARCH's loop over `count` candidate lengths from `M + count - 1` down to `M` (41_encoder.md R126). -/
def searchDown (s : State) : Nat → Option (Nat × Nat)
  | 0 => none
  | count + 1 =>
    match tryLength s (s.cfg.m + count) with
    | some r => some r
    | none => searchDown s count

/-- ENC.SEARCH(): the accepted offset and length, if any (41_encoder.md R126). -/
def search (s : State) : Option (Nat × Nat) :=
  searchDown s (longestCandidate s + 1 - s.cfg.m)

end Sys2Proof.Machine
end

