-- ==== Sys2Proof/Machine/Engine.lean ====
section
/-!
DEFINITION. The token steps: which token comes next, and running it. ENC.STEP (41_encoder.md R121) searches for it;
DEC.STEP (42_decoder.md R151) reads it from the stream. Also the host's transactions as instructions, and the placing
of an instruction word where the next step fetches it.
-/

namespace Sys2Proof.Machine

/-- The token ENC.STEP emits next (41_encoder.md R121, R126); `none` where the input has no byte at `IP`. -/
def nextToken (s : State) : Option Instr :=
  match search s with
  | some (p, len) => some (.matchRef p (len - s.cfg.m))
  | none =>
    match s.inp[s.ip]? with
    | some b => some (.lit b)
    | none => none

/-- ENC.STEP: end the operation, or emit exactly one token (41_encoder.md R121). -/
def encStep (s : State) : Result :=
  if s.ip = s.inp.length then .next (stop .inputEnd s)
  else
    match nextToken s with
    | some i => exec i s
    | none => .fault .inputIndexOutOfRange

/-- The token at the reader's cursor and the cursor after its fields, or the read that meets the end of the stream
(42_decoder.md R151 to R153). -/
def fetchToken (s : State) : Except Reject (Instr × Nat) :=
  decode s.cfg.p s.cfg.l s.inp s.bsrPos

/-- The state after a read that met the end of the stream: the rest is consumed (40_bitstream.md R106) and the
operation stops (42_decoder.md R157). -/
def stopAtEnd (r : Reject) (s : State) : State :=
  stop (termOf r) { s with bsrPos := 8 * s.inp.length }

/-- DEC.STEP: read one token and execute it, or end the operation (42_decoder.md R151). -/
def decStep (s : State) : Result :=
  match fetchToken s with
  | .ok (i, pos') => exec i { s with bsrPos := pos' }
  | .error r => .next (stopAtEnd r s)

/-- What the block does by itself at one step: a token step while BUSY (43_interface.md R175), nothing otherwise
(70_reset_and_hazards.md R220). BUSY with OP NONE is no state of the block (10_state.md R30). -/
def blockStep (s : State) : Result :=
  match s.status.state with
  | .idle => .next s
  | .done => .next s
  | .busy =>
    match s.status.op with
    | .encode => encStep s
    | .decode => decStep s
    | .none => .refused .tokenOutsideOperation

/-- The instruction of a transaction (43_interface.md R170). -/
def HostOp.instr : HostOp → Instr
  | .cfgWrite p l m ini r => .cfgWrite p l m ini r
  | .cfgRead => .cfgRead
  | .startEncode inp => .startEncode inp
  | .startDecode inp => .startDecode inp
  | .statusRead => .statusRead
  | .outRead => .outRead

/-- One step under the host's next move: its transaction, or a step of the block (43_interface.md R170, R175; log
entry 1). -/
def scheduledStep (s : State) : Result :=
  match s.schedule with
  | [] => blockStep s
  | .pause :: rest => blockStep { s with schedule := rest }
  | .transact op :: rest => exec op.instr { s with schedule := rest }

/-- The configuration an opcode-table word is read under where the state has no usable one: the table's own example
widths (log entry 10). -/
def tableCfg : Cfg := { p := tableP, l := tableL, m := 2, i := 0, r := 0 }

/-- A state in which a token can run: `s` itself where its configuration is written and legal and its write cursor is an
index of the dictionary; otherwise `s` as a START would leave it, under `tableCfg` where its own configuration will not
do (log entry 10). -/
def withUsableCfg (s : State) : State :=
  if s.cfgValid && legal s.par s.cfg then
    (if inDict s.cfg s.w then s else initOperation s)
  else initOperation { s with cfg := tableCfg, cfgValid := true }

/-- `s` running a DECODE of the buffer that holds the table word `w`, with the reader at its first bit and no move of
the host in between (log entry 10). -/
def placeWord (s : State) (nbits w : Nat) : State :=
  let t := withUsableCfg s
  { t with
    inp := tableBuffer t.cfg.p t.cfg.l nbits w
    bsrPos := 0
    status := statusStarted .decode
    schedule := [] }

end Sys2Proof.Machine
end

