-- ==== Sys2Proof/Machine/Step.lean ====
section
/-! DEFINITION. One step of the machine, and the placing of an instruction word for the next step. Both are written in
Machine/Engine.lean. -/

namespace Sys2Proof.Machine

/-- One step: the host's next transaction, or one token step (00_scope.md R5, 43_interface.md R170, R175). -/
def step (s : State) : Host.Outcome State Fault Refusal :=
  scheduledStep s

/-- `s` with the opcode-table word `w` of `nbits` bits placed where the very next step fetches its token. -/
def State.withFetchWord (s : State) (nbits w : Nat) : State :=
  placeWord s nbits w

end Sys2Proof.Machine
end

