-- ==== Sys2Proof/Machine/Instances.lean ====
section
/-!
DEFINITION. Any number of instances side by side, sharing nothing (20_memory.md R64, 43_interface.md R180). A refused
instance stays refused for good (43_interface.md R182).
-/

namespace Sys2Proof.Machine

/-- A system: where each instance stands. -/
abbrev System := List Result

/-- One step of one instance; an instance that has stopped stays so. -/
def resume (o : Result) : Result :=
  match o with
  | .next s => step s
  | .fault f => .fault f
  | .refused r => .refused r

/-- Instance `k` takes one step. -/
def stepInstance (k : Nat) (sys : System) : System :=
  sys.modify k resume

end Sys2Proof.Machine
end

