-- ==== Sys2Proof/Safety.lean ====
section
/-!
DEFINITION. The terms claims use: the invariant of an instance, which operation is running, what one operation shows of
a state, the bytes a MATCH stores, and sequences of instructions and of token steps.
-/

namespace Sys2Proof.Machine

/-- `op` is taking token steps (10_state.md R29). -/
abbrev State.Running (s : State) (op : Op) : Prop := s.status.state = .busy ∧ s.status.op = op

/-- The TERM codes a DECODE can end with (10_state.md R31, 60_exceptions.md R202). -/
abbrev Term.IsEndOfStream (t : Term) : Prop :=
  t = .eosFlag ∨ t = .eosLiteral ∨ t = .eosPosition ∨ t = .eosLength

/-- What every state of an instance satisfies: the ranges of 10_state.md R32, the status shapes of R29 to R31, and,
while an operation runs, a written and legal configuration and a dictionary and write cursor inside `0 .. N-1`. -/
structure State.Inv (s : State) : Prop where
  /-- the dictionary is in its canonical form -/
  dictCanonical : s.dict.wf = true
  /-- `0 <= IP <= n` (R32) -/
  inputPosition : s.ip ≤ s.inp.length
  /-- `0 <= pos <= 8*|In|` (R32, R35) -/
  readerPosition : s.bsrPos ≤ 8 * s.inp.length
  /-- the output is within OUT_MAX (43_interface.md R173) -/
  outputBound : outputFits s = true
  /-- IDLE: no operation yet (R29) -/
  idleStatus : s.status.state = .idle → s.status.op = .none ∧ s.status.term = .none
  /-- BUSY: an operation, not yet ended (R31) -/
  busyStatus : s.status.state = .busy → s.status.op ≠ .none ∧ s.status.term = .none
  /-- DONE: an operation, ended by one of its own causes (R31) -/
  doneStatus : s.status.state = .done →
    (s.status.op = .encode ∧ s.status.term = .inputEnd) ∨ (s.status.op = .decode ∧ s.status.term.IsEndOfStream)
  /-- nothing starts before a CFG_WRITE (R28) -/
  configWritten : s.status.state ≠ .idle → s.cfgValid = true
  /-- a running operation's configuration is legal (43_interface.md R173) -/
  busyConfig : s.status.state = .busy → legal s.par s.cfg = true
  /-- `0 <= W < N` (R32) -/
  busyCursor : s.status.state = .busy → s.w < dictSize s.cfg
  /-- every cell that is not 0x00 lies in `0 .. N-1` (20_memory.md R50) -/
  busyDict : s.status.state = .busy → s.dict.below (dictSize s.cfg) = true

/-- The host leaves the block alone at this step: no transaction is next. -/
abbrev State.HostQuiet (s : State) : Prop := ∀ op rest, s.schedule ≠ .transact op :: rest

/-- The state in which the block itself takes this step: the host's pause, if one is next, is used up. -/
def State.afterPause (s : State) : State := { s with schedule := s.schedule.tail }

/-- The memory after the bytes `bs` are stored one after another at `w`, `w + 1`, … (mod N): the stores of 10_state.md
R33. -/
def storedFrom (c : Cfg) : Nat → List Byte → Memory → Memory
  | _, [], m => m
  | w, b :: bs, m => storedFrom c (cursorNext c w) bs (m.write w b)

/-- The memory after ENC.MATCH's loop over the bytes `bs`: each is written back at the match pointer and, under `R = 1`,
stored at the write cursor (41_encoder.md R128). -/
def emittedStores (c : Cfg) : Nat → Nat → List Byte → Memory → Memory
  | _, _, [], m => m
  | q, w, b :: bs, m =>
    emittedStores c (cursorNext c q) (cursorNext c w) bs
      (if reuse c then (m.write q b).write w b else m.write q b)

/-- The index `k` places after `x`, wrapping (20_memory.md R52). -/
def wrapAt (c : Cfg) (x k : Nat) : Nat := (x + k) % dictSize c

/-- The dictionary holds, at `p .. p+len` taken flat, the next `len` input bytes (41_encoder.md R123). -/
abbrev Occurs (s : State) (p len : Nat) : Prop :=
  p + len ≤ dictSize s.cfg ∧ ∀ k, k < len → some (s.dict.read (p + k)) = s.inp[s.ip + k]?

/-- The lowest-offset occurrence of a candidate length (41_encoder.md R123). -/
abbrev FirstOccurs (s : State) (p len : Nat) : Prop :=
  Occurs s p len ∧ ∀ p', p' < p → ¬ Occurs s p' len

/-- The reuse-mode acceptance rule, spelled out (41_encoder.md R124). -/
abbrev Accepted (s : State) (p len : Nat) : Prop :=
  s.cfg.r = 1#1 →
    (s.par.reuseEnd = .inclusive → (p + len - 1) % 2 ^ s.cfg.p < s.w) ∧
    (s.par.reuseEnd = .exclusive → (p + len) % 2 ^ s.cfg.p < s.w)

/-- What an operation can depend on or show: everything but `Q` between tokens (10_state.md R36) and the model's own
`ret`. -/
def operationView (s : State) : State := { s with q := 0, ret := .none }

/-- The same of an outcome. -/
def viewOf (o : Result) : Result :=
  match o with
  | .next s => .next (operationView s)
  | .fault f => .fault f
  | .refused r => .refused r

/-- Instructions one after another, stopping at the first stop. -/
def execAll : List Instr → State → Result
  | [], s => .next s
  | i :: rest, s =>
    match exec i s with
    | .next t => execAll rest t
    | .fault f => .fault f
    | .refused r => .refused r

/-- `k` steps of the machine. -/
abbrev runSteps (k : Nat) (s : State) : Result := Host.Core.run Sys2Proof.core k s

end Sys2Proof.Machine
end

