-- ==== Sys2Proof/Certificates/Slice0/Obligations.lean ====
section
/-!
DEFINITION. The statements for the provers. Each formalises what a rule of spec/ says an instruction or the machine
does; the docstring names the rule.
-/

open Sys2Proof Sys2Proof.Machine

/-! ### Tokens and the stream -/

/-- 30_encoding.md R71 to R75: a token's bits, wherever they stand in a stream, are read back as that token with every
operand, and the reader stands right after them; so also in the packed bytes. -/
def Obligations.EncodedTokenDecodesToItself : Prop :=
  ∀ (P L : Nat) (i : Instr) (bits before after : Bits),
    wellFormed P L i = true → encode P L i = some bits →
      decodeBits P L (before ++ bits ++ after) before.length = .ok (i, before.length + bits.length) ∧
      decode P L (packBytes (before ++ bits ++ after)) before.length = .ok (i, before.length + bits.length)

/-- The other direction: what the decoder reads is a well-formed token, and its encoding is exactly the bits read. -/
def Obligations.DecodedTokenReencodesToTheBitsRead : Prop :=
  ∀ (P L : Nat) (s : Bits) (pos : Nat) (i : Instr) (pos' : Nat),
    decodeBits P L s pos = .ok (i, pos') →
      pos < pos' ∧ pos' ≤ s.length ∧ wellFormed P L i = true ∧
      encode P L i = some ((s.drop pos).take (pos' - pos))

/-- 30_encoding.md R73: the first bit alone fixes a token's format and length, and every complete bit sequence is a
token. -/
def Obligations.FlagBitFixesFormatAndLength : Prop :=
  ∀ (P L : Nat) (s : Bits) (pos : Nat),
    (s[pos]? = some true → pos + 9 ≤ s.length →
      ∃ b, decodeBits P L s pos = .ok (.lit b, pos + 9)) ∧
    (s[pos]? = some false → pos + (1 + P + L) ≤ s.length →
      ∃ p f, decodeBits P L s pos = .ok (.matchRef p f, pos + (1 + P + L)))

/-- 30_encoding.md R74, R75: operands are their fields read as unsigned numbers, most significant bit first, and a
match's length is the length field plus `M`, from `M` to `DMAX`. -/
def Obligations.OperandsAreTheirFields : Prop :=
  ∀ (c : Cfg) (s : Bits) (pos pos' : Nat),
    (∀ b, decodeBits c.p c.l s pos = .ok (.lit b, pos') →
      ∀ j, j < 8 → s[pos + 1 + j]? = some (b.getLsbD (7 - j))) ∧
    (∀ p f, decodeBits c.p c.l s pos = .ok (.matchRef p f, pos') →
      p < 2 ^ c.p ∧ (∀ j, j < c.p → s[pos + 1 + j]? = some (p.testBit (c.p - 1 - j))) ∧
      f < 2 ^ c.l ∧ (∀ j, j < c.l → s[pos + 1 + c.p + j]? = some (f.testBit (c.l - 1 - j))) ∧
      matchLength c f = f + c.m ∧ c.m ≤ matchLength c f ∧ matchLength c f ≤ c.m + 2 ^ c.l - 1)

/-- 30_encoding.md R71, R72, R81 and 95_test_vectors.md: words written out from the encodings decode to their tokens.
The last two clauses are the model's choice, no rule of the spec: that bit `k` of an opcode-table word is stream bit `k` is
log entry 9, and that the word is read under the widths 12 and 4 is log entry 10. -/
def Obligations.SampleWordsDecode : Prop :=
  decode 4 3 [0xA0#8, 0x80#8] 0 = .ok (.lit 0x41#8, 9) ∧
  decode 4 3 [0xA0#8, 0xD0#8, 0xA8#8, 0x60#8, 0x20#8] 27 = .ok (.matchRef 0 1, 35) ∧
  decode 4 3 [0x7F#8] 0 = .ok (.matchRef 15 7, 8) ∧
  decode 4 3 [0x80#8] 0 = .error .endInLiteral ∧
  decodeTableWord 9 0b100000101 = some (.lit 0x41#8) ∧
  decodeTableWord 17 0b01000111011111110 = some (.matchRef 4078 2)

/-- 20_memory.md R55: bits are most significant first within each byte, in both directions. -/
def Obligations.BitsAreMostSignificantFirst : Prop :=
  (∀ (buf : List Byte) (k : Nat),
    (streamBits buf)[k]? = (buf[k / 8]?).map fun b => b.getLsbD (7 - k % 8)) ∧
  (∀ (s : Bits) (k : Nat), k < s.length →
    ((packBytes s)[k / 8]?).map (fun b => b.getLsbD (7 - k % 8)) = s[k]?)

/-- 30_encoding.md R79: the size of a stream of LIT and MATCH tokens, in bits and in bytes. -/
def Obligations.StreamSizeFollowsFromTokens : Prop :=
  ∀ (P L : Nat) (lits : List Byte) (matches_ : List (Nat × Nat)) (is : List Instr),
    is.Perm (lits.map Instr.lit ++ matches_.map fun m => Instr.matchRef m.1 m.2) →
      (encodeAll P L is).length = 9 * lits.length + (1 + P + L) * matches_.length ∧
      (packBytes (encodeAll P L is)).length = (9 * lits.length + (1 + P + L) * matches_.length + 7) / 8

/-- 42_decoder.md R160: zero bits read as `MATCH 0, M` as long as a whole token's worth is left, and then as the end of
the stream. -/
def Obligations.PaddingReadsAsMatchOrEnd : Prop :=
  ∀ (P L : Nat) (s : Bits) (pos : Nat), (∀ k, pos ≤ k → k < s.length → s[k]? = some false) →
    (pos + (1 + P + L) ≤ s.length →
      decodeBits P L s pos = .ok (.matchRef 0 0, pos + (1 + P + L))) ∧
    (s.length < pos + (1 + P + L) →
      decodeBits P L s pos = .error .endInFlag ∨ decodeBits P L s pos = .error .endInPosition ∨
        decodeBits P L s pos = .error .endInLength)

/-- 30_encoding.md R80: the LIT and MATCH forms of a listing are the token encodings; a well-formed `MATCH p, len` is the
token with length field `len - M`, whose length is `len` again. -/
def Obligations.ListingFormsAreTheirTokens : Prop :=
  ∀ (P L M : Nat) (b : Byte) (p len : Nat),
    encode P L (.lit b) = some (Listing.bits P L M (.litForm b)) ∧
    (Listing.wellFormed P L M (.matchForm p len) = true →
      encode P L (.matchRef p (len - M)) = some (Listing.bits P L M (.matchForm p len)) ∧
      wellFormed P L (.matchRef p (len - M)) = true ∧ len - M + M = len)

/-! ### The bit-stream primitives -/

/-- 40_bitstream.md R101: BSW.WRITE appends the low `n` bits of `v`, most significant first, and changes nothing
else. -/
def Obligations.BswWriteAppendsLowBits : Prop :=
  ∀ (v n : Nat) (s : State), ∃ t, exec (.bswWrite v n) s = .next t ∧
    t = { s with bswBits := t.bswBits } ∧
    t.bswBits.length = s.bswBits.length + n ∧
    (∀ k, k < s.bswBits.length → t.bswBits[k]? = s.bswBits[k]?) ∧
    (∀ i, i < n → t.bswBits[s.bswBits.length + i]? = some (v.testBit (n - 1 - i)))

/-- 40_bitstream.md R102: BSW.BYTES returns the bits written, completed by zero bits to whole bytes, each byte the sum
of its bits' weights, and changes no bit. -/
def Obligations.BswBytesPacksAndPads : Prop :=
  ∀ s : State, ∃ bs, exec .bswBytes s = .next { s with ret := .bytes bs } ∧
    8 * bs.length = s.bswBits.length + (8 - s.bswBits.length % 8) % 8 ∧
    (∀ j, j < bs.length → (bs[j]?).map BitVec.toNat = some
      (((List.range 8).map fun t => (s.bswBits.getD (8 * j + t) false).toNat * 2 ^ (7 - t)).sum))

/-- 40_bitstream.md R105, R106: BSR.READ(n) returns the next `n` bits as a number and moves past them; where fewer are
left it returns EOS and moves to the end. It changes nothing else. -/
def Obligations.BsrReadReturnsFieldOrEos : Prop :=
  ∀ (n : Nat) (s : State),
    (s.bsrPos + n ≤ 8 * s.inp.length → ∃ v,
      exec (.bsrRead n) s = .next { s with bsrPos := s.bsrPos + n, ret := .field (some v) } ∧ v < 2 ^ n ∧
      ∀ i, i < n → (streamBits s.inp)[s.bsrPos + i]? = some (v.testBit (n - 1 - i))) ∧
    (8 * s.inp.length < s.bsrPos + n →
      exec (.bsrRead n) s = .next { s with bsrPos := 8 * s.inp.length, ret := .field none })

/-- 40_bitstream.md R107: BSR.EOF tells whether every bit has been consumed, and changes nothing. -/
def Obligations.BsrEofTellsWhetherAllIsRead : Prop :=
  ∀ s : State,
    (s.bsrPos = 8 * s.inp.length → exec .bsrEof s = .next { s with ret := .flag true }) ∧
    (s.bsrPos ≠ 8 * s.inp.length → exec .bsrEof s = .next { s with ret := .flag false })

/-- 40_bitstream.md R109: fields written one after another from an empty writer are read back in order, truncated to
their widths, by a reader started on BSW.BYTES; after them come only the padding zeros: one more read of `w` bits gives
0 where `w <= pad` and EOS otherwise. -/
def Obligations.WrittenFieldsReadBack : Prop :=
  ∀ (fs : List (Nat × Nat)) (s u : State), s.bswBits = [] → u.bsrPos = 0 →
    ∃ t, execAll (fs.map fun f => .bswWrite f.1 f.2) s = .next t ∧
      (u.inp = packBytes t.bswBits →
        (∀ xs f ys, fs = xs ++ f :: ys →
          ∃ u', execAll ((xs ++ [f]).map fun g => .bsrRead g.2) u = .next u' ∧
            u'.ret = .field (some (f.1 % 2 ^ f.2)) ∧
            u'.bsrPos = ((xs ++ [f]).map Prod.snd).sum) ∧
        (∀ w, ∃ u', execAll (fs.map (fun g => .bsrRead g.2) ++ [.bsrRead w]) u = .next u' ∧
          u'.ret = .field (if w ≤ (8 - (fs.map Prod.snd).sum % 8) % 8 then some 0 else none)))

/-! ### The host's transactions -/

/-- 43_interface.md R171: CFG_WRITE sets all five fields and CFG_VALID, checking nothing; while BUSY it is refused. -/
def Obligations.CfgWriteSetsAllFiveFields : Prop :=
  ∀ (p l m i : Nat) (r : BitVec 1) (s : State),
    (s.status.state ≠ .busy → exec (.cfgWrite p l m i r) s =
      .next { s with cfg := { p := p, l := l, m := m, i := i, r := r }, cfgValid := true }) ∧
    (s.status.state = .busy → exec (.cfgWrite p l m i r) s = .refused .cfgWriteWhileBusy)

/-- 43_interface.md R172: CFG_READ returns the five fields, also while BUSY; before the first CFG_WRITE it is refused. -/
def Obligations.CfgReadReturnsConfiguration : Prop :=
  ∀ s : State,
    (s.cfgValid = true → exec .cfgRead s = .next { s with ret := .cfg s.cfg }) ∧
    (s.cfgValid = false → exec .cfgRead s = .refused .cfgUnwritten)

/-- 70_reset_and_hazards.md R221, 43_interface.md R173, R174: a START that nothing refuses gives the operation a
zero-filled dictionary, the write cursor at `I`, all other working registers empty or 0, and the input buffer; STATUS is
BUSY, the operation, NONE. `Q` is not live: the statement fixes no value for it. -/
def Obligations.StartInitialisesTheOperation : Prop :=
  ∀ (buf : List Byte) (s : State), s.status.state ≠ .busy → s.cfgValid = true → legal s.par s.cfg = true →
    (∀ k, s.par.inMax = some k → buf.length ≤ k) →
    ∃ (d : Memory) (q : Nat), (∀ j, d.read j = 0x00#8) ∧ d.wf = true ∧
      exec (.startEncode buf) s = .next { s with
        dict := d, w := s.cfg.i, ip := 0, q := q, bswBits := [], bsrPos := 0, out := [], inp := buf,
        status := { state := .busy, op := .encode, term := .none } } ∧
      exec (.startDecode buf) s = .next { s with
        dict := d, w := s.cfg.i, ip := 0, q := q, bswBits := [], bsrPos := 0, out := [], inp := buf,
        status := { state := .busy, op := .decode, term := .none } }

/-- 43_interface.md R173 (LEGAL), 60_exceptions.md R205: which configurations a START accepts. The test of `R` is the
rule's own; a register of one bit always passes it (log entry 12). -/
def Obligations.LegalIsTheStatedRanges : Prop :=
  ∀ (par : Params) (c : Cfg), legal par c = true ↔
    (1 ≤ c.p ∧ (∀ k, par.pMax = some k → c.p ≤ k)) ∧ (1 ≤ c.l ∧ (∀ k, par.lMax = some k → c.l ≤ k)) ∧
    (1 ≤ c.m ∧ c.m ≤ 2 ^ c.l - 1) ∧ c.i < 2 ^ c.p ∧ (c.r = 0#1 ∨ c.r = 1#1)

/-- 43_interface.md R173, R174, R182: what a START refuses, in the order the rule checks. -/
def Obligations.StartRefusesInOrder : Prop :=
  ∀ (buf : List Byte) (s : State) (i : Instr), (i = .startEncode buf ∨ i = .startDecode buf) →
    (s.status.state = .busy → exec i s = .refused .startWhileBusy) ∧
    (s.status.state ≠ .busy → s.cfgValid = false → exec i s = .refused .cfgUnwritten) ∧
    (s.status.state ≠ .busy → s.cfgValid = true → legal s.par s.cfg = false → exec i s = .refused .cfgInconsistent) ∧
    (s.status.state ≠ .busy → s.cfgValid = true → legal s.par s.cfg = true →
      (∃ k, s.par.inMax = some k ∧ k < buf.length) → exec i s = .refused .inputTooLong)

/-- 43_interface.md R177: STATUS_READ returns STATUS in every state and changes nothing. -/
def Obligations.StatusReadReturnsStatus : Prop :=
  ∀ s : State, exec .statusRead s = .next { s with ret := .status s.status }

/-- 43_interface.md R178, 41_encoder.md R134, 42_decoder.md R159: OUT_READ at DONE returns the packed bits of an ENCODE
or the bytes of a DECODE and changes nothing; otherwise it is refused. -/
def Obligations.OutReadReturnsTheOutput : Prop :=
  ∀ s : State,
    (s.status.state = .done → s.status.op = .encode →
      exec .outRead s = .next { s with ret := .bytes (packBytes s.bswBits) }) ∧
    (s.status.state = .done → s.status.op = .decode → exec .outRead s = .next { s with ret := .bytes s.out }) ∧
    (s.status.state ≠ .done → exec .outRead s = .refused .outputNotReady)

/-! ### LIT and MATCH -/

/-- 42_decoder.md R152: in a DECODE, LIT appends its byte to `Out`, stores it at `W` and advances `W`; nothing else
changes. -/
def Obligations.LitDecodedAppendsAndStores : Prop :=
  ∀ (b : Byte) (s : State), s.Running .decode → s.w < dictSize s.cfg → s.dict.wf = true →
    withinBound s.par.outMax (s.out.length + 1) = true →
    ∃ t, exec (.lit b) s = .next t ∧
      t = { s with out := s.out ++ [b], w := (s.w + 1) % 2 ^ s.cfg.p, dict := t.dict } ∧
      (∀ j, t.dict.read j = if j = s.w then b else s.dict.read j)

/-- 41_encoder.md R127: in an ENCODE, LIT of the byte at `IP` appends a flag 1 and the byte's 8 bits, stores the byte at
`W`, and advances `W` and `IP`; nothing else changes. -/
def Obligations.LitEmittedWritesAndStores : Prop :=
  ∀ (b : Byte) (s : State), s.Running .encode → s.inp[s.ip]? = some b → s.w < dictSize s.cfg → s.dict.wf = true →
    withinBound s.par.outMax ((s.bswBits.length + 9 + 7) / 8) = true →
    ∃ t, exec (.lit b) s = .next t ∧
      t = { s with
        bswBits := s.bswBits ++ true :: fieldBits 8 b.toNat, ip := s.ip + 1, w := (s.w + 1) % 2 ^ s.cfg.p,
        dict := t.dict } ∧
      (∀ j, t.dict.read j = if j = s.w then b else s.dict.read j)

/-- 42_decoder.md R154, R155, R156: in a DECODE under `R = 0`, MATCH with any position and any length field appends the
bytes at `pos`, `pos + 1`, … (wrapping) and stores nothing: the dictionary and `W` are unchanged. -/
def Obligations.MatchDecodedWithoutReuseCopies : Prop :=
  ∀ (pos lenf : Nat) (s : State), s.Running .decode → s.cfg.r = 0#1 → pos < 2 ^ s.cfg.p → lenf < 2 ^ s.cfg.l →
    withinBound s.par.outMax (s.out.length + (lenf + s.cfg.m)) = true →
    exec (.matchRef pos lenf) s = .next { s with
      q := wrapAt s.cfg pos (lenf + s.cfg.m)
      out := s.out ++ (List.range (lenf + s.cfg.m)).map fun k => s.dict.read (wrapAt s.cfg pos k) }

/-- 42_decoder.md R154, R156: in a DECODE under `R = 1`, MATCH produces its bytes one at a time, each read after every
earlier one of the same MATCH has been stored at `W`, `W + 1`, … (wrapping). -/
def Obligations.MatchDecodedWithReuseCopiesByteByByte : Prop :=
  ∀ (pos lenf : Nat) (s : State), s.Running .decode → s.cfg.r = 1#1 → pos < 2 ^ s.cfg.p → lenf < 2 ^ s.cfg.l →
    s.w < dictSize s.cfg → withinBound s.par.outMax (s.out.length + (lenf + s.cfg.m)) = true →
    ∃ bs : List Byte, bs.length = lenf + s.cfg.m ∧
      exec (.matchRef pos lenf) s = .next { s with
        q := wrapAt s.cfg pos (lenf + s.cfg.m)
        out := s.out ++ bs
        w := wrapAt s.cfg s.w (lenf + s.cfg.m)
        dict := storedFrom s.cfg s.w bs s.dict } ∧
      ∀ k, k < lenf + s.cfg.m →
        bs[k]? = some ((storedFrom s.cfg s.w (bs.take k) s.dict).read (wrapAt s.cfg pos k))

/-- 41_encoder.md R128: in an ENCODE, MATCH appends a flag 0, its position and its length field, writes the next
`lenf + M` input bytes back at `pos`, `pos + 1`, … and, under `R = 1`, also stores them at `W`, `W + 1`, … (wrapping),
and advances `IP` past them; under `R = 0` it leaves `W`. -/
def Obligations.MatchEmittedWritesAndStores : Prop :=
  ∀ (pos lenf : Nat) (s : State), s.Running .encode → pos < 2 ^ s.cfg.p → lenf < 2 ^ s.cfg.l →
    s.ip + (lenf + s.cfg.m) ≤ s.inp.length → s.w < dictSize s.cfg →
    withinBound s.par.outMax ((s.bswBits.length + (1 + s.cfg.p + s.cfg.l) + 7) / 8) = true →
    exec (.matchRef pos lenf) s = .next { s with
      bswBits := s.bswBits ++ false :: (fieldBits s.cfg.p pos ++ fieldBits s.cfg.l lenf)
      q := wrapAt s.cfg pos (lenf + s.cfg.m)
      ip := s.ip + (lenf + s.cfg.m)
      w := if s.cfg.r = 1#1 then wrapAt s.cfg s.w (lenf + s.cfg.m) else s.w
      dict := emittedStores s.cfg pos s.w ((s.inp.drop s.ip).take (lenf + s.cfg.m)) s.dict }

/-- 41_encoder.md R129, R130: for the match the search chose, the write-back changes nothing: under `R = 0` the token
leaves the dictionary and `W` as they were, and under `R = 1` with INCLUSIVE the dictionary is changed by the stores at
`W` alone. -/
def Obligations.EncoderWriteBackIsIdentity : Prop :=
  ∀ (s t : State) (p len : Nat), s.Running .encode → s.Inv → search s = some (p, len) →
    exec (.matchRef p (len - s.cfg.m)) s = .next t →
    (s.cfg.r = 0#1 → t.dict = s.dict ∧ t.w = s.w) ∧
    (s.cfg.r = 1#1 → s.par.reuseEnd = .inclusive →
      t.dict = storedFrom s.cfg s.w ((s.inp.drop s.ip).take len) s.dict ∧ t.w = wrapAt s.cfg s.w len)

/-- The frame of LIT and MATCH: what no token changes, what each leaves, and that every dictionary cell reads as before
but the one LIT stores at (`W`), and the ones MATCH stores at: `W`, `W + 1`, … under `R = 1`, and in an ENCODE also
`pos`, `pos + 1`, … (the write-back). -/
def Obligations.TokenFrame : Prop :=
  ∀ (s t : State),
    (∀ b, exec (.lit b) s = .next t →
      t.cfg = s.cfg ∧ t.cfgValid = s.cfgValid ∧ t.status = s.status ∧ t.inp = s.inp ∧ t.par = s.par ∧ t.ret = s.ret ∧
      t.schedule = s.schedule ∧ t.bsrPos = s.bsrPos ∧ t.q = s.q ∧
      (s.status.op = .decode → t.ip = s.ip ∧ t.bswBits = s.bswBits) ∧ (s.status.op = .encode → t.out = s.out) ∧
      (∀ a, a ≠ s.w → t.dict.read a = s.dict.read a)) ∧
    (∀ pos lenf, exec (.matchRef pos lenf) s = .next t →
      t.cfg = s.cfg ∧ t.cfgValid = s.cfgValid ∧ t.status = s.status ∧ t.inp = s.inp ∧ t.par = s.par ∧ t.ret = s.ret ∧
      t.schedule = s.schedule ∧ t.bsrPos = s.bsrPos ∧
      (s.status.op = .decode → t.ip = s.ip ∧ t.bswBits = s.bswBits) ∧ (s.status.op = .encode → t.out = s.out) ∧
      (s.cfg.r ≠ 1#1 → t.w = s.w) ∧
      (∀ a, (s.status.op = .encode → ∀ k, k < lenf + s.cfg.m → a ≠ wrapAt s.cfg pos k) →
        (s.cfg.r = 1#1 → ∀ k, k < lenf + s.cfg.m → a ≠ wrapAt s.cfg s.w k) → t.dict.read a = s.dict.read a))

/-- The model's own stops of a token (log entries 7 and 8): outside an operation, with an operand wider than its field,
with a literal that is not the input's next byte, past the input's end, or at a write cursor outside the dictionary. -/
def Obligations.TokenStopsByName : Prop :=
  ∀ (s : State),
    (s.status.state ≠ .busy → ∀ b pos lenf, exec (.lit b) s = .refused .tokenOutsideOperation ∧
      exec (.matchRef pos lenf) s = .refused .tokenOutsideOperation) ∧
    (∀ pos lenf, s.Running .decode ∨ s.Running .encode → (2 ^ s.cfg.p ≤ pos ∨ 2 ^ s.cfg.l ≤ lenf) →
      exec (.matchRef pos lenf) s = .refused .illFormedToken) ∧
    (s.Running .encode → ∀ b c, s.inp[s.ip]? = some c → c ≠ b → exec (.lit b) s = .refused .literalNotInput) ∧
    (s.Running .encode → s.inp.length ≤ s.ip → ∀ b, exec (.lit b) s = .fault .inputIndexOutOfRange) ∧
    (s.Running .encode → ∀ pos lenf, pos < 2 ^ s.cfg.p → lenf < 2 ^ s.cfg.l →
      s.inp.length < s.ip + (lenf + s.cfg.m) → exec (.matchRef pos lenf) s = .fault .inputIndexOutOfRange) ∧
    (s.Running .decode → dictSize s.cfg ≤ s.w → ∀ b, exec (.lit b) s = .fault .dictIndexOutOfRange)

/-- 43_interface.md R173 (OUT_MAX): a token that would make the output longer than a set OUT_MAX is refused. In the two
ENCODE clauses, that the partial last byte counts as a whole byte is the model's choice, log entry 13. -/
def Obligations.OutputPastOutMaxIsRefused : Prop :=
  ∀ (s : State) (k : Nat), s.par.outMax = some k → s.w < dictSize s.cfg →
    (s.Running .decode → k < s.out.length + 1 → ∀ b, exec (.lit b) s = .refused .outputTooLong) ∧
    (s.Running .decode → ∀ pos lenf, pos < 2 ^ s.cfg.p → lenf < 2 ^ s.cfg.l →
      k < s.out.length + (lenf + s.cfg.m) → exec (.matchRef pos lenf) s = .refused .outputTooLong) ∧
    (s.Running .encode → k < (s.bswBits.length + 9 + 7) / 8 → ∀ b, s.inp[s.ip]? = some b →
      exec (.lit b) s = .refused .outputTooLong) ∧
    (s.Running .encode → ∀ pos lenf, pos < 2 ^ s.cfg.p → lenf < 2 ^ s.cfg.l →
      s.ip + (lenf + s.cfg.m) ≤ s.inp.length →
      k < (s.bswBits.length + (1 + s.cfg.p + s.cfg.l) + 7) / 8 →
      exec (.matchRef pos lenf) s = .refused .outputTooLong)

/-! ### The search -/

/-- 41_encoder.md R122, R123, R126: the search returns a length between `M` and `min(CAP, n - IP)` and the lowest offset
at which it occurs in the flat dictionary, accepted, such that no longer candidate's lowest occurrence is accepted; and
it returns none only where no candidate's is. -/
def Obligations.SearchReturnsLongestAcceptedFirstOccurrence : Prop :=
  ∀ (s : State),
    (∀ p len, search s = some (p, len) ↔
      s.cfg.m ≤ len ∧ len ≤ min (2 ^ (s.cfg.l - 1)) (s.inp.length - s.ip) ∧
      FirstOccurs s p len ∧ Accepted s p len ∧
      ∀ len', len < len' → len' ≤ min (2 ^ (s.cfg.l - 1)) (s.inp.length - s.ip) →
        ∀ p', FirstOccurs s p' len' → ¬ Accepted s p' len') ∧
    (search s = none ↔
      ∀ len, s.cfg.m ≤ len → len ≤ min (2 ^ (s.cfg.l - 1)) (s.inp.length - s.ip) →
        ∀ p, FirstOccurs s p len → ¬ Accepted s p len)

/-- 41_encoder.md R125: under `R = 1` with INCLUSIVE, not retrying a rejected length has no effect: a length is taken
exactly with the lowest offset at which it occurs wholly below `W`. -/
def Obligations.InclusiveTakesLowestCommittedOccurrence : Prop :=
  ∀ (s : State) (p len : Nat), s.cfg.r = 1#1 → s.par.reuseEnd = .inclusive → 1 ≤ len →
    len ≤ s.inp.length - s.ip →
    (tryLength s len = some (p, len) ↔
      Occurs s p len ∧ p + len ≤ s.w ∧ ∀ p', p' < p → ¬ (Occurs s p' len ∧ p' + len ≤ s.w))

/-- 41_encoder.md R135: under `R = 1` with INCLUSIVE an occurrence is usable exactly when it lies wholly in `D[0 .. W)`; so
does every match, and at `W = 0` there is none and the step emits a literal. -/
def Obligations.InclusiveMatchLiesBelowCursor : Prop :=
  ∀ (s : State), s.cfg.r = 1#1 → s.par.reuseEnd = .inclusive → 1 ≤ s.cfg.m →
    (∀ p len, 1 ≤ len → Occurs s p len → (acceptMatch s p len = true ↔ p + len ≤ s.w)) ∧
    (∀ p len, search s = some (p, len) → p + len ≤ s.w) ∧
    (s.w = 0 → search s = none ∧ ∀ b, s.inp[s.ip]? = some b → nextToken s = some (.lit b))

/-- 41_encoder.md R131, R136, 30_encoding.md R76: under a legal configuration the fields of the match the search chose
fit without truncation, and its length is at most `min(CAP, n - IP)`. -/
def Obligations.EncoderFieldsFit : Prop :=
  ∀ (s : State) (p len : Nat), legal s.par s.cfg = true → search s = some (p, len) →
    p + len ≤ 2 ^ s.cfg.p ∧ p < 2 ^ s.cfg.p ∧ s.cfg.m ≤ len ∧ len ≤ 2 ^ (s.cfg.l - 1) ∧
    len ≤ s.inp.length - s.ip ∧ len - s.cfg.m ≤ 2 ^ (s.cfg.l - 1) - s.cfg.m ∧ len - s.cfg.m < 2 ^ s.cfg.l ∧
    wellFormed s.cfg.p s.cfg.l (.matchRef p (len - s.cfg.m)) = true

/-! ### The step -/

/-- 42_decoder.md R151 to R153, 10_state.md R35: in a DECODE, where the bits at the reader's cursor hold a token, the
step is that token's execution with the cursor moved past its bits. -/
def Obligations.StepExecutesTheTokenRead : Prop :=
  ∀ (s : State) (i : Instr) (pos' : Nat), s.HostQuiet → s.Running .decode →
    decode s.cfg.p s.cfg.l s.inp s.bsrPos = .ok (i, pos') →
    step s = exec i { s.afterPause with bsrPos := pos' }

/-- 60_exceptions.md R203, 42_decoder.md R157, 40_bitstream.md R106: in a DECODE the first read that meets the end of
the stream ends the operation, with the TERM code of that read, the cursor at the end and nothing else changed. -/
def Obligations.FirstReadPastTheEndStops : Prop :=
  ∀ (s : State), s.HostQuiet → s.Running .decode → s.bsrPos ≤ 8 * s.inp.length →
    (s.bsrPos = 8 * s.inp.length → step s = .next { s.afterPause with
      bsrPos := 8 * s.inp.length, status := { state := .done, op := .decode, term := .eosFlag } }) ∧
    ((streamBits s.inp)[s.bsrPos]? = some true → 8 * s.inp.length < s.bsrPos + 9 →
      step s = .next { s.afterPause with
        bsrPos := 8 * s.inp.length, status := { state := .done, op := .decode, term := .eosLiteral } }) ∧
    ((streamBits s.inp)[s.bsrPos]? = some false → 8 * s.inp.length < s.bsrPos + 1 + s.cfg.p →
      step s = .next { s.afterPause with
        bsrPos := 8 * s.inp.length, status := { state := .done, op := .decode, term := .eosPosition } }) ∧
    ((streamBits s.inp)[s.bsrPos]? = some false → s.bsrPos + 1 + s.cfg.p ≤ 8 * s.inp.length →
      8 * s.inp.length < s.bsrPos + 1 + s.cfg.p + s.cfg.l →
      step s = .next { s.afterPause with
        bsrPos := 8 * s.inp.length, status := { state := .done, op := .decode, term := .eosLength } })

/-- 41_encoder.md R121: in an ENCODE the step ends the operation exactly at the input's end, and otherwise emits exactly
one token: the match the search found, or the literal at `IP`. -/
def Obligations.StepEmitsOneTokenOrEnds : Prop :=
  ∀ (s : State), s.HostQuiet → s.Running .encode →
    (s.ip = s.inp.length → step s = .next { s.afterPause with
      status := { state := .done, op := .encode, term := .inputEnd } }) ∧
    (s.ip < s.inp.length →
      (∀ p len, search s = some (p, len) → step s = exec (.matchRef p (len - s.cfg.m)) s.afterPause) ∧
      (search s = none → ∃ b, s.inp[s.ip]? = some b ∧ step s = exec (.lit b) s.afterPause))

/-- 43_interface.md R170, R175, 70_reset_and_hazards.md R220: a transaction of the host is executed when its turn comes,
and a block that is not BUSY does nothing by itself. -/
def Obligations.HostTransactionRunsInItsTurn : Prop :=
  ∀ (s : State),
    (∀ op rest, s.schedule = .transact op :: rest → step s = exec op.instr { s with schedule := rest }) ∧
    (s.HostQuiet → s.status.state ≠ .busy → step s = .next s.afterPause)

/-- From reset, a word of the opcode table placed for the next fetch is decoded and executed by the very next step (log
entries 9 and 10 say how the word is laid out and under which widths). -/
def Obligations.PlacedWordIsTheNextInstruction : Prop :=
  ∀ (nbits w : Nat) (i : Instr), decodeTableWord nbits w = some i →
    ∃ pos' t, step (State.reset.withFetchWord nbits w) =
        exec i { State.reset.withFetchWord nbits w with bsrPos := pos' } ∧
      step (State.reset.withFetchWord nbits w) = .next t

/-- 30_encoding.md R70: an encoder step that emits a token appends exactly that token's bits to the stream. -/
def Obligations.EncoderStepAppendsTokenBits : Prop :=
  ∀ (s t : State), s.HostQuiet → s.Running .encode → s.Inv → s.ip < s.inp.length → step s = .next t →
    ∃ i bits, wellFormed s.cfg.p s.cfg.l i = true ∧ encode s.cfg.p s.cfg.l i = some bits ∧
      t.bswBits = s.bswBits ++ bits ∧ s.ip < t.ip ∧ t.ip ≤ s.inp.length

/-- 41_encoder.md R129, 42_decoder.md R155: under `R = 0` a token step that does not handle a literal leaves the
dictionary and `W` unchanged. -/
def Obligations.MatchWithoutReuseLeavesTheWindow : Prop :=
  ∀ (s t : State), s.HostQuiet → s.Inv → s.cfg.r = 0#1 → step s = .next t →
    (s.Running .decode → (∀ b pos', decode s.cfg.p s.cfg.l s.inp s.bsrPos ≠ .ok (.lit b, pos')) →
      t.dict = s.dict ∧ t.w = s.w) ∧
    (s.Running .encode → search s ≠ none → t.dict = s.dict ∧ t.w = s.w)

/-! ### The machine as a whole -/

/-- 70_reset_and_hazards.md R220: what block reset leaves; the configuration and the output cannot be read, and the block
does nothing. -/
def Obligations.ResetLeavesIdleAndUnconfigured : Prop :=
  State.reset.status = { state := .idle, op := .none, term := .none } ∧ State.reset.cfgValid = false ∧
  exec .cfgRead State.reset = .refused .cfgUnwritten ∧ exec .outRead State.reset = .refused .outputNotReady ∧
  step State.reset = .next State.reset

/-- The model's invariant holds right after reset (the values the spec leaves unspecified are the model's, log entry
3). -/
def Obligations.InvariantHoldsAtReset : Prop := State.reset.Inv

/-- 10_state.md R32 and R29 to R31 as an invariant: every step from a state that meets it gives a state that meets
it. -/
def Obligations.StepKeepsTheInvariant : Prop :=
  ∀ (s t : State), s.Inv → step s = .next t → t.Inv

/-- 60_exceptions.md R200, 43_interface.md R182: from a state that meets the invariant no step faults, and a step is
refused only for a reason the spec names: a host action it refuses, or an output past OUT_MAX. -/
def Obligations.OnlyTheSpecsRefusalsStop : Prop :=
  ∀ (s : State), s.Inv →
    (∀ f, step s ≠ .fault f) ∧
    (∀ r, step s = .refused r →
      r = .cfgWriteWhileBusy ∨ r = .startWhileBusy ∨ r = .cfgUnwritten ∨ r = .cfgInconsistent ∨ r = .inputTooLong ∨
      r = .outputNotReady ∨ (r = .outputTooLong ∧ s.HostQuiet ∧ s.par.outMax ≠ none))

/-- 60_exceptions.md R200, 42_decoder.md R156, R157, 41_encoder.md R121: with no OUT_MAX set, a running operation's
token step always goes on: no input byte, stream content or operand stops it. -/
def Obligations.TokenStepAlwaysCompletes : Prop :=
  ∀ (s : State), s.Inv → s.status.state = .busy → s.HostQuiet → s.par.outMax = none → ∃ t, step s = .next t

/-- 41_encoder.md R132: an ENCODE the host leaves alone ends, within one step more than it has input bytes left. -/
def Obligations.EncodeEnds : Prop :=
  ∀ (s : State), s.Inv → s.Running .encode → s.schedule = [] → s.par.outMax = none →
    ∃ k t, k ≤ s.inp.length - s.ip + 1 ∧ runSteps k s = .next t ∧
      t.status = { state := .done, op := .encode, term := .inputEnd } ∧ t.ip = s.inp.length

/-- 42_decoder.md R158: a DECODE the host leaves alone ends, within one step more than a third of the bits left, at an
end-of-stream read. -/
def Obligations.DecodeEnds : Prop :=
  ∀ (s : State), s.Inv → s.Running .decode → s.schedule = [] → s.par.outMax = none →
    ∃ k t, k ≤ (8 * s.inp.length - s.bsrPos) / 3 + 1 ∧ runSteps k s = .next t ∧
      t.status.state = .done ∧ t.status.op = .decode ∧ t.status.term.IsEndOfStream ∧ t.bsrPos = 8 * s.inp.length

/-- 41_encoder.md R132: an ENCODE step that goes on moves `IP` forward and spends at most 9 bits, or `1 + P + L` bits per
`M` bytes, on the input it consumes: so the whole stream has at most `n * max(9, (1 + P + L) / M)` bits. -/
def Obligations.EncoderStepBitCost : Prop :=
  ∀ (s t : State), s.HostQuiet → s.Inv → s.Running .encode → s.ip < s.inp.length → step s = .next t →
    t.Running .encode ∧ s.ip + 1 ≤ t.ip ∧
    s.cfg.m * (t.bswBits.length - s.bswBits.length) ≤ (t.ip - s.ip) * max (9 * s.cfg.m) (1 + s.cfg.p + s.cfg.l)

/-- 42_decoder.md R158: a DECODE step that goes on consumes `min(9, 1 + P + L)` bits or more, at least 3, and appends at
most `DMAX` bytes. -/
def Obligations.DecoderStepBounds : Prop :=
  ∀ (s t : State), s.HostQuiet → s.Inv → s.Running .decode → step s = .next t → t.status.state = .busy →
    s.bsrPos + min 9 (1 + s.cfg.p + s.cfg.l) ≤ t.bsrPos ∧ 3 ≤ min 9 (1 + s.cfg.p + s.cfg.l) ∧
    s.out.length < t.out.length ∧ t.out.length ≤ s.out.length + longestMatch s.cfg

/-- 10_state.md R26, 20_memory.md R53: no instruction but CFG_WRITE changes CFG or CFG_VALID, none but a START changes
the input buffer, and none changes the parameters. -/
def Obligations.OnlyTheirWritersChangeConfigAndInput : Prop :=
  ∀ (i : Instr) (s t : State), exec i s = .next t →
    t.par = s.par ∧
    ((∀ p l m ini r, i ≠ .cfgWrite p l m ini r) → t.cfg = s.cfg ∧ t.cfgValid = s.cfgValid) ∧
    ((∀ buf, i ≠ .startEncode buf ∧ i ≠ .startDecode buf) → t.inp = s.inp)

/-- 10_state.md R27, 20_memory.md R66, 70_reset_and_hazards.md R224: while an operation runs, nothing the host or the
block does changes its configuration or its input. -/
def Obligations.RunningOperationKeepsConfigAndInput : Prop :=
  ∀ (s t : State), s.status.state = .busy → step s = .next t →
    t.cfg = s.cfg ∧ t.cfgValid = s.cfgValid ∧ t.inp = s.inp ∧ t.par = s.par

/-- 10_state.md R30: STATE moves from IDLE or DONE to BUSY at a START, and from BUSY to DONE when an operation stops; no
other transition exists. -/
def Obligations.StateMovesOnlyAtStartAndStop : Prop :=
  ∀ (s t : State), step s = .next t → t.status.state ≠ s.status.state →
    (s.status.state ≠ .busy ∧ t.status.state = .busy ∧
      ∃ buf rest, s.schedule = .transact (.startEncode buf) :: rest ∨ s.schedule = .transact (.startDecode buf) :: rest) ∨
    (s.status.state = .busy ∧ t.status.state = .done ∧ s.HostQuiet ∧ t.status.term ≠ .none)

/-- 20_memory.md R54, 10_state.md R37, R38: while an operation runs, output is only appended. -/
def Obligations.OutputOnlyGrowsDuringOperation : Prop :=
  ∀ (s t : State), s.status.state = .busy → step s = .next t →
    (∃ more, t.out = s.out ++ more) ∧ (∃ more, t.bswBits = s.bswBits ++ more)

/-- 43_interface.md R176, R178, 70_reset_and_hazards.md R222: at DONE the output is complete and fixed until the next
START. -/
def Obligations.OutputIsFixedUntilNextStart : Prop :=
  ∀ (s t : State), s.status.state = .done → step s = .next t → t.status.state = .done →
    outputOf t = outputOf s ∧ t.status = s.status

/-- 42_decoder.md R162: under INCLUSIVE, an encoder and a decoder with the same window still have the same window after
the encoder emits a token and the decoder executes it, and the decoder has appended exactly the input bytes that token
encodes. -/
def Obligations.DecoderTracksEncoderWindow : Prop :=
  ∀ (e d : State) (i : Instr), e.Running .encode → e.Inv → e.par.reuseEnd = .inclusive → e.ip < e.inp.length →
    nextToken e = some i → d.Running .decode → d.cfg = e.cfg → d.dict = e.dict → d.w = e.w →
    e.par.outMax = none → d.par.outMax = none →
    ∃ e' d', exec i e = .next e' ∧ exec i d = .next d' ∧ d'.dict = e'.dict ∧ d'.w = e'.w ∧
      e.ip < e'.ip ∧ e'.ip ≤ e.inp.length ∧ d'.out = d.out ++ (e.inp.drop e.ip).take (e'.ip - e.ip)

/-- 42_decoder.md R162: under INCLUSIVE, after any number of the encoder's steps from START, the tokens emitted so far,
executed by a decoder from START, give that decoder the encoder's dictionary and write cursor, and exactly the input bytes
those tokens encode; while the encoder goes on, each of its steps has emitted one token. -/
def Obligations.WindowsAgreeAfterEveryToken : Prop :=
  ∀ (s e : State) (x buf : List Byte) (k : Nat), s.cfgValid = true → legal s.par s.cfg = true →
    s.par.reuseEnd = .inclusive → s.par.outMax = none → s.schedule = [] →
    runSteps k (startOperation .encode x s) = .next e →
    ∃ is d, encodeAll s.cfg.p s.cfg.l is = e.bswBits ∧ (e.status.state = .busy → is.length = k) ∧
      execAll is (startOperation .decode buf s) = .next d ∧
      d.dict = e.dict ∧ d.w = e.w ∧ d.out = x.take e.ip

/-- 42_decoder.md R161, R160: under a legal configuration and INCLUSIVE, with no size limit set, decoding what was encoded
first gives the input back, in a decoder with the encoder's window; then the padding's spurious tokens run, if there are
any: `floor(pad / (1 + P + L))` times `MATCH 0, M`; and that is all. So where `pad < 1 + P + L`, as always where
`P + L >= 7`, the output is the input. -/
def Obligations.DecodeOfEncodeGivesTheInput : Prop :=
  ∀ (s : State) (x : List Byte), s.status.state ≠ .busy → s.cfgValid = true → legal s.par s.cfg = true →
    s.par.reuseEnd = .inclusive → s.par.inMax = none → s.par.outMax = none → s.schedule = [] → s.Inv →
    ∃ s0 k e d0 j d1 j' d u pad, exec (.startEncode x) s = .next s0 ∧ runSteps k s0 = .next e ∧ e.status.state = .done ∧
      pad = (8 - e.bswBits.length % 8) % 8 ∧
      exec (.startDecode (outputOf e)) e = .next d0 ∧ runSteps j d0 = .next d1 ∧
      d1.out = x ∧ d1.dict = e.dict ∧ d1.w = e.w ∧
      runSteps j' d1 = .next d ∧ d.status.state = .done ∧
      execAll (List.replicate (pad / (1 + s.cfg.p + s.cfg.l)) (.matchRef 0 0)) d1 = .next u ∧ d.out = u.out ∧
      d.out.length = x.length + pad / (1 + s.cfg.p + s.cfg.l) * s.cfg.m ∧
      (pad < 1 + s.cfg.p + s.cfg.l → d.out = x) ∧ (7 ≤ s.cfg.p + s.cfg.l → d.out = x)

/-- 70_reset_and_hazards.md R222, 41_encoder.md R133, 42_decoder.md R159: an operation is a function of the
configuration, the parameters and the input: whatever else two instances held before the START, their runs agree in
everything but `Q`, which is not used between tokens (10_state.md R36), and `ret`. -/
def Obligations.OperationDependsOnConfigAndInputOnly : Prop :=
  ∀ (a b : State) (op : Op) (buf : List Byte) (k : Nat), a.cfg = b.cfg → a.cfgValid = b.cfgValid → a.par = b.par →
    a.schedule = [] → b.schedule = [] →
    viewOf (runSteps k (startOperation op buf a)) = viewOf (runSteps k (startOperation op buf b))

/-- 43_interface.md R180: instances stepped in any interleaving end as each would alone. -/
def Obligations.InstancesRunAsIfAlone : Prop :=
  ∀ (order : List Nat) (sys : System) (i : Nat),
    (order.foldl (fun sys k => stepInstance k sys) sys)[i]? = (sys[i]?).map (resume^[order.count i])
end

