-- ==== Sys2Proof/Laws/Bits.lean ====
section
/-! SUPPORT. Laws of the bit order, the packing of bits into bytes and the reading of a field (00_scope.md R9,
40_bitstream.md R101 to R109). -/

namespace Sys2Proof.Laws

/-! ### Fields as bits -/

@[simp] theorem fieldBits_zero (v : Nat) : fieldBits 0 v = [] := rfl

theorem fieldBits_succ (n v : Nat) : fieldBits (n + 1) v = v.testBit n :: fieldBits n v := rfl

@[simp] theorem fieldBits_length (n v : Nat) : (fieldBits n v).length = n := by
  induction n with
  | zero => rfl
  | succ n ih => simp [fieldBits_succ, ih]

theorem fieldBits_getElem? (n v j : Nat) (h : j < n) : (fieldBits n v)[j]? = some (v.testBit (n - 1 - j)) := by
  induction n generalizing j with
  | zero => omega
  | succ n ih =>
    cases j with
    | zero => simp [fieldBits_succ]
    | succ j =>
      have e : n + 1 - 1 - (j + 1) = n - 1 - j := by omega
      simp only [fieldBits_succ, List.getElem?_cons_succ, e]
      exact ih j (by omega)

@[simp] theorem bitsValue_nil : bitsValue [] = 0 := rfl

theorem foldl_bits (s : Bits) (a : Nat) :
    s.foldl (fun v b => 2 * v + b.toNat) a = a * 2 ^ s.length + bitsValue s := by
  induction s generalizing a with
  | nil => simp [bitsValue]
  | cons b s ih =>
    have e : bitsValue (b :: s) = (2 * 0 + b.toNat) * 2 ^ s.length + bitsValue s := by
      simpa [bitsValue] using ih (2 * 0 + b.toNat)
    rw [List.foldl_cons, ih, e, List.length_cons, pow_succ]
    ring

theorem bitsValue_cons (b : Bool) (s : Bits) : bitsValue (b :: s) = b.toNat * 2 ^ s.length + bitsValue s := by
  have h := foldl_bits s (2 * 0 + b.toNat)
  simpa [bitsValue] using h

theorem bitsValue_append (s t : Bits) : bitsValue (s ++ t) = bitsValue s * 2 ^ t.length + bitsValue t := by
  unfold bitsValue
  rw [List.foldl_append]
  exact foldl_bits t _

theorem bitsValue_lt (s : Bits) : bitsValue s < 2 ^ s.length := by
  induction s with
  | nil => simp
  | cons b s ih =>
    rw [bitsValue_cons, List.length_cons, pow_succ]
    cases b <;> simp <;> omega

@[simp] theorem bitsValue_zeros (n : Nat) : bitsValue (List.replicate n false) = 0 := by
  induction n with
  | zero => rfl
  | succ n ih => simp [List.replicate_succ, bitsValue_cons, ih]

/-- Reading back the bits of a field gives its value, truncated to the field's width (40_bitstream.md R101, R109). -/
theorem bitsValue_fieldBits (n v : Nat) : bitsValue (fieldBits n v) = v % 2 ^ n := by
  induction n with
  | zero => simp [Nat.mod_one]
  | succ n ih =>
    rw [fieldBits_succ, bitsValue_cons, ih, fieldBits_length, Nat.mod_pow_succ, Nat.toNat_testBit]
    ring

/-- The bits of a sequence's value, at its own width, are the sequence. -/
theorem fieldBits_bitsValue (s : Bits) : fieldBits s.length (bitsValue s) = s := by
  induction s with
  | nil => rfl
  | cons b s ih =>
    have hlt := bitsValue_lt s
    have key : ∀ j, j ≤ s.length →
        fieldBits j (b.toNat * 2 ^ s.length + bitsValue s) = fieldBits j (bitsValue s) := by
      intro j hj
      induction j with
      | zero => rfl
      | succ j ihj =>
        rw [fieldBits_succ, fieldBits_succ, ihj (by omega), Nat.mul_comm, Nat.testBit_two_pow_mul_add _ hlt]
        simp [show j < s.length by omega]
    rw [List.length_cons, fieldBits_succ, bitsValue_cons, key _ le_rfl, ih, Nat.mul_comm,
      Nat.testBit_two_pow_mul_add _ hlt]
    cases b <;> simp

theorem testBit_bitsValue (s : Bits) (j : Nat) (h : j < s.length) :
    some ((bitsValue s).testBit (s.length - 1 - j)) = s[j]? := by
  rw [← fieldBits_getElem? s.length (bitsValue s) j h, fieldBits_bitsValue]

/-! ### Bytes as bits -/

@[simp] theorem streamBits_nil : streamBits [] = [] := rfl

theorem streamBits_cons (b : Byte) (buf : List Byte) : streamBits (b :: buf) = fieldBits 8 b.toNat ++ streamBits buf :=
  rfl

@[simp] theorem streamBits_length (buf : List Byte) : (streamBits buf).length = 8 * buf.length := by
  induction buf with
  | nil => rfl
  | cons b buf ih => rw [streamBits_cons, List.length_append, fieldBits_length, ih, List.length_cons]; omega

/-- Stream bit `k` is bit `7 - (k mod 8)` of byte `k div 8` (00_scope.md R9). -/
theorem streamBits_getElem? (buf : List Byte) (k : Nat) :
    (streamBits buf)[k]? = (buf[k / 8]?).map fun b => b.getLsbD (7 - k % 8) := by
  induction buf generalizing k with
  | nil => simp
  | cons b buf ih =>
    rw [streamBits_cons]
    by_cases h : k < 8
    · rw [List.getElem?_append_left (by simpa using h), fieldBits_getElem? 8 _ k h]
      simp [Nat.div_eq_of_lt h, Nat.mod_eq_of_lt h, BitVec.getLsbD]
    · rw [List.getElem?_append_right (by simpa using Nat.le_of_not_lt h), fieldBits_length, ih]
      have e1 : k / 8 = (k - 8) / 8 + 1 := by omega
      have e2 : k % 8 = (k - 8) % 8 := by omega
      rw [e1, e2, List.getElem?_cons_succ]

theorem padCount_lt (k : Nat) : padCount k < 8 := Nat.mod_lt _ (by omega)

theorem padBits_length (s : Bits) : (padBits s).length = s.length + padCount s.length := by
  simp [padBits]

theorem eight_dvd_padded (k : Nat) : 8 ∣ k + padCount k := by
  unfold padCount; omega

@[simp] theorem packBytes_length (s : Bits) : (packBytes s).length = (s.length + padCount s.length) / 8 := by
  simp [packBytes, padBits_length]

@[simp] theorem packBytes_nil : packBytes [] = [] := rfl

theorem eight_mul_packBytes_length (s : Bits) : 8 * (packBytes s).length = s.length + padCount s.length := by
  rw [packBytes_length]
  exact Nat.mul_div_cancel' (eight_dvd_padded _)

theorem streamBits_of_chunks (n : Nat) (t : Bits) (h : t.length = 8 * n) :
    streamBits ((List.range n).map fun j => BitVec.ofNat 8 (bitsValue ((t.drop (8 * j)).take 8))) = t := by
  induction n generalizing t with
  | zero => simpa using (List.length_eq_zero_iff.mp (by simpa using h)).symm
  | succ n ih =>
    have hd : (t.drop 8).length = 8 * n := by simp; omega
    have ht : (t.take 8).length = 8 := by simp; omega
    have hv : bitsValue (t.take 8) < 2 ^ 8 := by simpa [ht] using bitsValue_lt (t.take 8)
    have tail := ih (t.drop 8) hd
    have e : ∀ j, (t.drop 8).drop (8 * j) = t.drop (8 * (j + 1)) := by
      intro j; rw [List.drop_drop]; congr 1; ring
    simp only [e] at tail
    rw [List.range_succ_eq_map, List.map_cons, List.map_map, streamBits_cons]
    simp only [Function.comp_def, Nat.succ_eq_add_one, tail, Nat.mul_zero, List.drop_zero, BitVec.toNat_ofNat,
      Nat.mod_eq_of_lt hv]
    have hb : fieldBits 8 (bitsValue (t.take 8)) = t.take 8 := by
      have := fieldBits_bitsValue (t.take 8)
      rwa [ht] at this
    rw [hb, List.take_append_drop]

/-- The stream view of the packed bytes is the bits written and the padding zeros (40_bitstream.md R102). -/
theorem streamBits_packBytes (s : Bits) : streamBits (packBytes s) = padBits s := by
  have h8 : (padBits s).length = 8 * ((padBits s).length / 8) := by
    rw [padBits_length]; exact (Nat.mul_div_cancel' (eight_dvd_padded _)).symm
  exact streamBits_of_chunks _ _ h8

/-! ### Reading a field -/

theorem readField_end (s : Bits) (pos n : Nat) (h : s.length < pos + n) : readField s pos n = (none, s.length) := by
  simp [readField, h]

theorem readField_value (s : Bits) (pos n : Nat) (h : pos + n ≤ s.length) :
    readField s pos n = (some (bitsValue ((s.drop pos).take n)), pos + n) := by
  simp [readField, Nat.not_lt.mpr h]

/-- A field read where `bits` stands in the stream. -/
theorem readField_at (before bits after : Bits) (n : Nat) (h : bits.length = n) :
    readField (before ++ bits ++ after) before.length n = (some (bitsValue bits), before.length + n) := by
  rw [readField_value _ _ _ (by simp; omega)]
  simp [h.symm]

/-- What one read can do: meet the end, or return the field's bits as a number (40_bitstream.md R105, R106). -/
theorem readField_cases (s : Bits) (pos n : Nat) :
    (s.length < pos + n ∧ readField s pos n = (none, s.length)) ∨
    (pos + n ≤ s.length ∧ readField s pos n = (some (bitsValue ((s.drop pos).take n)), pos + n)) := by
  by_cases h : s.length < pos + n
  · exact .inl ⟨h, readField_end s pos n h⟩
  · exact .inr ⟨by omega, readField_value s pos n (by omega)⟩

theorem drop_take_length (s : Bits) (pos n : Nat) (h : pos + n ≤ s.length) : ((s.drop pos).take n).length = n := by
  simp; omega

theorem drop_take_getElem? (s : Bits) (pos n j : Nat) (h : j < n) : ((s.drop pos).take n)[j]? = s[pos + j]? := by
  simp [h]

end Sys2Proof.Laws
end

