-- ==== Sys2Proof/Laws/Decode.lean ====
section
/-! SUPPORT. What reading a token can do: every outcome of `decodeBits`, and the token read where an encoding stands
(30_encoding.md R71 to R78, 42_decoder.md R151 to R153). -/

namespace Sys2Proof.Laws

/-- The flag bit at an index inside the stream. -/
theorem bitsValue_single (s : Bits) (pos : Nat) (b : Bool) (h : s[pos]? = some b) :
    bitsValue ((s.drop pos).take 1) = b.toNat := by
  have e : (s.drop pos).take 1 = [b] := by
    have : (s.drop pos)[0]? = some b := by simpa using h
    cases hs : s.drop pos with
    | nil => simp [hs] at this
    | cons c t => simp [hs] at this; simp [this]
  rw [e]; simp [bitsValue_cons]

theorem decodeBits_flag_end (P L : Nat) (s : Bits) (pos : Nat) (h : s.length ≤ pos) :
    decodeBits P L s pos = .error .endInFlag := by
  simp [decodeBits, readField_end s pos 1 (by omega)]

theorem decodeBits_flag_one (P L : Nat) (s : Bits) (pos : Nat) (h : s[pos]? = some true) :
    decodeBits P L s pos = decodeLit s (pos + 1) := by
  have hp : pos < s.length := by
    by_contra hc; rw [List.getElem?_eq_none (by omega)] at h; cases h
  simp [decodeBits, readField_value s pos 1 (by omega), bitsValue_single s pos true h]

theorem decodeBits_flag_zero (P L : Nat) (s : Bits) (pos : Nat) (h : s[pos]? = some false) :
    decodeBits P L s pos = decodeMatch P L s (pos + 1) := by
  have hp : pos < s.length := by
    by_contra hc; rw [List.getElem?_eq_none (by omega)] at h; cases h
  simp [decodeBits, readField_value s pos 1 (by omega), bitsValue_single s pos false h]

/-- What reading a token can do: meet the end in one of its reads, or give a LIT of 9 bits or a MATCH of `1 + P + L`
bits whose operands are the fields read as numbers. -/
theorem decodeBits_cases (P L : Nat) (s : Bits) (pos : Nat) :
    (s.length ≤ pos ∧ decodeBits P L s pos = .error .endInFlag) ∨
    (s[pos]? = some true ∧ s.length < pos + 9 ∧ decodeBits P L s pos = .error .endInLiteral) ∨
    (s[pos]? = some true ∧ pos + 9 ≤ s.length ∧
      decodeBits P L s pos = .ok (.lit (BitVec.ofNat 8 (bitsValue ((s.drop (pos + 1)).take 8))), pos + 9)) ∨
    (s[pos]? = some false ∧ s.length < pos + 1 + P ∧ decodeBits P L s pos = .error .endInPosition) ∨
    (s[pos]? = some false ∧ pos + 1 + P ≤ s.length ∧ s.length < pos + 1 + P + L ∧
      decodeBits P L s pos = .error .endInLength) ∨
    (s[pos]? = some false ∧ pos + 1 + P + L ≤ s.length ∧
      decodeBits P L s pos = .ok (.matchRef (bitsValue ((s.drop (pos + 1)).take P))
        (bitsValue ((s.drop (pos + 1 + P)).take L)), pos + 1 + P + L)) := by
  cases hb : s[pos]? with
  | none =>
    have hp : s.length ≤ pos := by simpa using hb
    exact .inl ⟨hp, decodeBits_flag_end P L s pos hp⟩
  | some b =>
    cases b with
    | true =>
      rw [decodeBits_flag_one P L s pos hb]
      rcases readField_cases s (pos + 1) 8 with ⟨h, e⟩ | ⟨h, e⟩
      · exact .inr (.inl ⟨rfl, by omega, by simp [decodeLit, e]⟩)
      · exact .inr (.inr (.inl ⟨rfl, by omega, by simp [decodeLit, e]⟩))
    | false =>
      rw [decodeBits_flag_zero P L s pos hb]
      rcases readField_cases s (pos + 1) P with ⟨h, e⟩ | ⟨h, e⟩
      · exact .inr (.inr (.inr (.inl ⟨rfl, by omega, by simp [decodeMatch, e]⟩)))
      · rcases readField_cases s (pos + 1 + P) L with ⟨h', e'⟩ | ⟨h', e'⟩
        · exact .inr (.inr (.inr (.inr (.inl ⟨rfl, by omega, by omega, by simp [decodeMatch, e, e']⟩))))
        · exact .inr (.inr (.inr (.inr (.inr ⟨rfl, by omega, by simp [decodeMatch, e, e']⟩))))

theorem decodeBits_lit_at (P L : Nat) (before after : Bits) (b : Byte) :
    decodeBits P L (before ++ (fieldBits 1 1 ++ fieldBits 8 b.toNat) ++ after) before.length =
      .ok (.lit b, before.length + 9) := by
  have e : before ++ (fieldBits 1 1 ++ fieldBits 8 b.toNat) ++ after =
      (before ++ fieldBits 1 1) ++ fieldBits 8 b.toNat ++ after := by simp
  have hf : (before ++ (fieldBits 1 1 ++ fieldBits 8 b.toNat) ++ after)[before.length]? = some true := by
    simp [fieldBits_succ]
  have hl : before.length + 1 = (before ++ fieldBits 1 1).length := by simp
  rw [decodeBits_flag_one P L _ _ hf, e, decodeLit, hl, readField_at _ _ _ 8 (by simp)]
  have hb : BitVec.ofNat 8 (b.toNat % 256) = b := BitVec.eq_of_toNat_eq (by simpa using b.isLt)
  simp [bitsValue_fieldBits, hb]

theorem decodeBits_match_at (P L : Nat) (before after : Bits) (pos lenf : Nat) (hp : pos < 2 ^ P) (hl : lenf < 2 ^ L) :
    decodeBits P L (before ++ (fieldBits 1 0 ++ fieldBits P pos ++ fieldBits L lenf) ++ after) before.length =
      .ok (.matchRef pos lenf, before.length + (1 + P + L)) := by
  have hf : (before ++ (fieldBits 1 0 ++ fieldBits P pos ++ fieldBits L lenf) ++ after)[before.length]? = some false := by
    simp [fieldBits_succ]
  have e1 : before ++ (fieldBits 1 0 ++ fieldBits P pos ++ fieldBits L lenf) ++ after =
      (before ++ fieldBits 1 0) ++ fieldBits P pos ++ (fieldBits L lenf ++ after) := by simp
  have e2 : (before ++ fieldBits 1 0) ++ fieldBits P pos ++ (fieldBits L lenf ++ after) =
      (before ++ fieldBits 1 0 ++ fieldBits P pos) ++ fieldBits L lenf ++ after := by simp
  have l1 : before.length + 1 = (before ++ fieldBits 1 0).length := by simp
  have l2 : (before ++ fieldBits 1 0).length + P = (before ++ fieldBits 1 0 ++ fieldBits P pos).length := by
    simp; omega
  rw [decodeBits_flag_zero P L _ _ hf, decodeMatch, e1, l1, readField_at _ _ _ P (by simp)]
  simp only []
  rw [l2, e2, readField_at _ _ _ L (by simp)]
  simp only [bitsValue_fieldBits, Nat.mod_eq_of_lt hp, Nat.mod_eq_of_lt hl, List.length_append, fieldBits_length,
    Except.ok.injEq, Prod.mk.injEq, true_and]
  omega

end Sys2Proof.Laws
end

