-- ==== Sys2Proof/Laws/Memory.lean ====
section
/-! SUPPORT. Laws of the dictionary's memory (20_memory.md R51, R63): read after write, the canonical form and its
uniqueness, and the range of the listed cells. -/

namespace Sys2Proof.Machine

@[simp] theorem Memory.read_nil (i : Nat) : Memory.read [] i = unlistedByte := rfl

@[simp] theorem Memory.wf_nil : Memory.wf [] = true := rfl

@[simp] theorem Memory.below_nil (n : Nat) : Memory.below n [] = true := rfl

theorem Memory.wf_cons {a : Nat} {b : Byte} {rest : Memory} :
    Memory.wf ((a, b) :: rest) = true ↔
      b ≠ unlistedByte ∧ (∀ c ∈ rest, a < c.1) ∧ Memory.wf rest = true := by
  simp [Memory.wf, and_assoc]

/-- No cell at or below an index that every listed address exceeds. -/
theorem Memory.read_of_lt {m : Memory} {i : Nat} (h : ∀ c ∈ m, i < c.1) : m.read i = unlistedByte := by
  induction m with
  | nil => rfl
  | cons c rest ih =>
    obtain ⟨a, b⟩ := c
    have h1 : i < a := h (a, b) List.mem_cons_self
    rw [Memory.read, if_neg (by omega)]
    exact ih fun c hc => h c (List.mem_cons_of_mem _ hc)

theorem Memory.read_write_self {m : Memory} (h : m.wf = true) (i : Nat) (b : Byte) : (m.write i b).read i = b := by
  induction m with
  | nil =>
    by_cases hb : b = unlistedByte
    · simp [Memory.write, hb]
    · simp [Memory.write, hb, Memory.read]
  | cons c rest ih =>
    obtain ⟨a, d⟩ := c
    obtain ⟨-, hr, hw⟩ := Memory.wf_cons.mp h
    by_cases h1 : i < a
    · by_cases hb : b = unlistedByte
      · have hlt : ∀ c ∈ (a, d) :: rest, i < c.1 := by
          intro c hc
          rcases List.mem_cons.mp hc with rfl | hc
          · exact h1
          · exact h1.trans (hr c hc)
        simp [Memory.write, h1, hb, Memory.read_of_lt hlt]
      · simp [Memory.write, h1, hb, Memory.read]
    · by_cases h2 : i = a
      · subst h2
        by_cases hb : b = unlistedByte
        · simp [Memory.write, hb, Memory.read_of_lt hr]
        · simp [Memory.write, hb, Memory.read]
      · simp [Memory.write, h1, h2, Memory.read, ih hw]

theorem Memory.read_write_other {m : Memory} {i j : Nat} (hij : j ≠ i) (b : Byte) :
    (m.write i b).read j = m.read j := by
  induction m with
  | nil => by_cases hb : b = unlistedByte <;> simp [Memory.write, hb, Memory.read, hij]
  | cons c rest ih =>
    obtain ⟨a, d⟩ := c
    by_cases h1 : i < a
    · by_cases hb : b = unlistedByte <;> simp [Memory.write, h1, hb, Memory.read, hij]
    · by_cases h2 : i = a
      · subst h2
        by_cases hb : b = unlistedByte <;> simp [Memory.write, hb, Memory.read, hij]
      · simp [Memory.write, h1, h2, Memory.read, ih]

/-- A store, read anywhere. -/
theorem Memory.read_write {m : Memory} (h : m.wf = true) (i j : Nat) (b : Byte) :
    (m.write i b).read j = if j = i then b else m.read j := by
  by_cases e : j = i
  · subst e; simp [Memory.read_write_self h]
  · simp [e, Memory.read_write_other e]

theorem Memory.mem_write {m : Memory} {i : Nat} {b : Byte} {c : Host.Cell} (h : c ∈ m.write i b) :
    c.1 = i ∨ c ∈ m := by
  induction m with
  | nil =>
    by_cases hb : b = unlistedByte
    · simp [Memory.write, hb] at h
    · simp [Memory.write, hb] at h; exact .inl (by rw [h])
  | cons e rest ih =>
    obtain ⟨a, d⟩ := e
    by_cases h1 : i < a
    · by_cases hb : b = unlistedByte
      · simp only [Memory.write, if_pos h1, if_pos hb] at h; exact .inr h
      · simp only [Memory.write, if_pos h1, if_neg hb] at h
        rcases List.mem_cons.mp h with rfl | h
        · exact .inl rfl
        · exact .inr h
    · by_cases h2 : i = a
      · subst h2
        by_cases hb : b = unlistedByte
        · simp only [Memory.write, if_neg h1, if_pos hb, if_true] at h
          exact .inr (List.mem_cons_of_mem _ h)
        · simp only [Memory.write, if_neg h1, if_neg hb, if_true] at h
          rcases List.mem_cons.mp h with rfl | h
          · exact .inl rfl
          · exact .inr (List.mem_cons_of_mem _ h)
      · simp only [Memory.write, if_neg h1, if_neg h2] at h
        rcases List.mem_cons.mp h with rfl | h
        · exact .inr List.mem_cons_self
        · rcases ih h with h | h
          · exact .inl h
          · exact .inr (List.mem_cons_of_mem _ h)

/-- A store keeps the canonical form. -/
theorem Memory.write_wf {m : Memory} (h : m.wf = true) (i : Nat) (b : Byte) : (m.write i b).wf = true := by
  induction m with
  | nil => by_cases hb : b = unlistedByte <;> simp [Memory.write, hb, Memory.wf]
  | cons c rest ih =>
    obtain ⟨a, d⟩ := c
    obtain ⟨hd, hr, hw⟩ := Memory.wf_cons.mp h
    by_cases h1 : i < a
    · by_cases hb : b = unlistedByte
      · simpa [Memory.write, h1, hb] using h
      · simp only [Memory.write, if_pos h1, if_neg hb]
        refine Memory.wf_cons.mpr ⟨hb, ?_, h⟩
        intro c hc
        rcases List.mem_cons.mp hc with rfl | hc
        · exact h1
        · exact h1.trans (hr c hc)
    · by_cases h2 : i = a
      · subst h2
        by_cases hb : b = unlistedByte
        · simpa [Memory.write, hb] using hw
        · simp only [Memory.write, if_neg h1, if_neg hb, if_true]
          exact Memory.wf_cons.mpr ⟨hb, hr, hw⟩
      · simp only [Memory.write, if_neg h1, if_neg h2]
        refine Memory.wf_cons.mpr ⟨hd, ?_, ih hw⟩
        intro c hc
        rcases Memory.mem_write hc with e | hc
        · omega
        · exact hr c hc

/-- Two canonical memories that read the same everywhere are the same data. -/
theorem Memory.eq_of_read_eq {m m' : Memory} (h : m.wf = true) (h' : m'.wf = true)
    (e : ∀ i, m.read i = m'.read i) : m = m' := by
  induction m generalizing m' with
  | nil =>
    cases m' with
    | nil => rfl
    | cons c rest =>
      obtain ⟨a, b⟩ := c
      have := e a
      simp only [Memory.read, if_true] at this
      exact absurd this.symm (Memory.wf_cons.mp h').1
  | cons c rest ih =>
    obtain ⟨a, b⟩ := c
    obtain ⟨hb, hr, hw⟩ := Memory.wf_cons.mp h
    cases m' with
    | nil =>
      have := e a
      simp only [Memory.read, if_true] at this
      exact absurd this hb
    | cons c' rest' =>
      obtain ⟨a', b'⟩ := c'
      obtain ⟨hb', hr', hw'⟩ := Memory.wf_cons.mp h'
      have haa : a = a' := by
        rcases Nat.lt_trichotomy a a' with hlt | heq | hlt
        · have ha := e a
          have : Memory.read ((a', b') :: rest') a = unlistedByte := Memory.read_of_lt (by
            intro c hc
            rcases List.mem_cons.mp hc with rfl | hc
            · exact hlt
            · exact hlt.trans (hr' c hc))
          rw [this] at ha
          simp only [Memory.read, if_true] at ha
          exact absurd ha hb
        · exact heq
        · have ha := e a'
          have : Memory.read ((a, b) :: rest) a' = unlistedByte := Memory.read_of_lt (by
            intro c hc
            rcases List.mem_cons.mp hc with rfl | hc
            · exact hlt
            · exact hlt.trans (hr c hc))
          rw [this] at ha
          simp only [Memory.read, if_true] at ha
          exact absurd ha.symm hb'
      subst haa
      have hbb : b = b' := by simpa [Memory.read] using e a
      subst hbb
      have : rest = rest' := by
        refine ih hw hw' fun i => ?_
        by_cases hi : i = a
        · subst hi; rw [Memory.read_of_lt hr, Memory.read_of_lt hr']
        · simpa [Memory.read, hi] using e i
      rw [this]

/-- Storing the byte a cell already holds changes nothing. -/
theorem Memory.write_read_self {m : Memory} (h : m.wf = true) (i : Nat) : m.write i (m.read i) = m := by
  refine Memory.eq_of_read_eq (Memory.write_wf h i _) h fun j => ?_
  rw [Memory.read_write h]
  split <;> simp_all

theorem Memory.below_iff {n : Nat} {m : Memory} : Memory.below n m = true ↔ ∀ c ∈ m, c.1 < n := by
  simp [Memory.below]

theorem Memory.write_below {n : Nat} {m : Memory} (h : Memory.below n m = true) {i : Nat} (hi : i < n) (b : Byte) :
    Memory.below n (m.write i b) = true := by
  rw [Memory.below_iff] at h ⊢
  intro c hc
  rcases Memory.mem_write hc with e | hc
  · omega
  · exact h c hc

end Sys2Proof.Machine
end

