-- ==== Sys2Proof/Laws/State.lean ====
section
/-! SUPPORT. One lemma per field per state update, so that no proof unfolds a record update. -/

namespace Sys2Proof.Machine

/-! ### `storeAtCursor` -/

@[simp] theorem storeAtCursor_cfg (b : Byte) (s : State) : (storeAtCursor b s).cfg = s.cfg := rfl
@[simp] theorem storeAtCursor_cfgValid (b : Byte) (s : State) : (storeAtCursor b s).cfgValid = s.cfgValid := rfl
@[simp] theorem storeAtCursor_status (b : Byte) (s : State) : (storeAtCursor b s).status = s.status := rfl
@[simp] theorem storeAtCursor_w (b : Byte) (s : State) : (storeAtCursor b s).w = cursorNext s.cfg s.w := rfl
@[simp] theorem storeAtCursor_ip (b : Byte) (s : State) : (storeAtCursor b s).ip = s.ip := rfl
@[simp] theorem storeAtCursor_q (b : Byte) (s : State) : (storeAtCursor b s).q = s.q := rfl
@[simp] theorem storeAtCursor_bswBits (b : Byte) (s : State) : (storeAtCursor b s).bswBits = s.bswBits := rfl
@[simp] theorem storeAtCursor_bsrPos (b : Byte) (s : State) : (storeAtCursor b s).bsrPos = s.bsrPos := rfl
@[simp] theorem storeAtCursor_out (b : Byte) (s : State) : (storeAtCursor b s).out = s.out := rfl
@[simp] theorem storeAtCursor_dict (b : Byte) (s : State) : (storeAtCursor b s).dict = s.dict.write s.w b := rfl
@[simp] theorem storeAtCursor_inp (b : Byte) (s : State) : (storeAtCursor b s).inp = s.inp := rfl
@[simp] theorem storeAtCursor_par (b : Byte) (s : State) : (storeAtCursor b s).par = s.par := rfl
@[simp] theorem storeAtCursor_ret (b : Byte) (s : State) : (storeAtCursor b s).ret = s.ret := rfl
@[simp] theorem storeAtCursor_schedule (b : Byte) (s : State) : (storeAtCursor b s).schedule = s.schedule := rfl

/-! ### `writeBits` -/

@[simp] theorem writeBits_cfg (v n : Nat) (s : State) : (writeBits v n s).cfg = s.cfg := rfl
@[simp] theorem writeBits_cfgValid (v n : Nat) (s : State) : (writeBits v n s).cfgValid = s.cfgValid := rfl
@[simp] theorem writeBits_status (v n : Nat) (s : State) : (writeBits v n s).status = s.status := rfl
@[simp] theorem writeBits_w (v n : Nat) (s : State) : (writeBits v n s).w = s.w := rfl
@[simp] theorem writeBits_ip (v n : Nat) (s : State) : (writeBits v n s).ip = s.ip := rfl
@[simp] theorem writeBits_q (v n : Nat) (s : State) : (writeBits v n s).q = s.q := rfl
@[simp] theorem writeBits_bswBits (v n : Nat) (s : State) : (writeBits v n s).bswBits = s.bswBits ++ fieldBits n v := rfl
@[simp] theorem writeBits_bsrPos (v n : Nat) (s : State) : (writeBits v n s).bsrPos = s.bsrPos := rfl
@[simp] theorem writeBits_out (v n : Nat) (s : State) : (writeBits v n s).out = s.out := rfl
@[simp] theorem writeBits_dict (v n : Nat) (s : State) : (writeBits v n s).dict = s.dict := rfl
@[simp] theorem writeBits_inp (v n : Nat) (s : State) : (writeBits v n s).inp = s.inp := rfl
@[simp] theorem writeBits_par (v n : Nat) (s : State) : (writeBits v n s).par = s.par := rfl
@[simp] theorem writeBits_ret (v n : Nat) (s : State) : (writeBits v n s).ret = s.ret := rfl
@[simp] theorem writeBits_schedule (v n : Nat) (s : State) : (writeBits v n s).schedule = s.schedule := rfl

/-! ### `give` -/

@[simp] theorem give_cfg (r : Ret) (s : State) : (give r s).cfg = s.cfg := rfl
@[simp] theorem give_cfgValid (r : Ret) (s : State) : (give r s).cfgValid = s.cfgValid := rfl
@[simp] theorem give_status (r : Ret) (s : State) : (give r s).status = s.status := rfl
@[simp] theorem give_w (r : Ret) (s : State) : (give r s).w = s.w := rfl
@[simp] theorem give_ip (r : Ret) (s : State) : (give r s).ip = s.ip := rfl
@[simp] theorem give_q (r : Ret) (s : State) : (give r s).q = s.q := rfl
@[simp] theorem give_bswBits (r : Ret) (s : State) : (give r s).bswBits = s.bswBits := rfl
@[simp] theorem give_bsrPos (r : Ret) (s : State) : (give r s).bsrPos = s.bsrPos := rfl
@[simp] theorem give_out (r : Ret) (s : State) : (give r s).out = s.out := rfl
@[simp] theorem give_dict (r : Ret) (s : State) : (give r s).dict = s.dict := rfl
@[simp] theorem give_inp (r : Ret) (s : State) : (give r s).inp = s.inp := rfl
@[simp] theorem give_par (r : Ret) (s : State) : (give r s).par = s.par := rfl
@[simp] theorem give_ret (r : Ret) (s : State) : (give r s).ret = r := rfl
@[simp] theorem give_schedule (r : Ret) (s : State) : (give r s).schedule = s.schedule := rfl

/-! ### `initOperation` -/

@[simp] theorem initOperation_cfg (s : State) : (initOperation s).cfg = s.cfg := rfl
@[simp] theorem initOperation_cfgValid (s : State) : (initOperation s).cfgValid = s.cfgValid := rfl
@[simp] theorem initOperation_status (s : State) : (initOperation s).status = s.status := rfl
@[simp] theorem initOperation_w (s : State) : (initOperation s).w = s.cfg.i := rfl
@[simp] theorem initOperation_ip (s : State) : (initOperation s).ip = 0 := rfl
@[simp] theorem initOperation_q (s : State) : (initOperation s).q = s.q := rfl
@[simp] theorem initOperation_bswBits (s : State) : (initOperation s).bswBits = [] := rfl
@[simp] theorem initOperation_bsrPos (s : State) : (initOperation s).bsrPos = 0 := rfl
@[simp] theorem initOperation_out (s : State) : (initOperation s).out = [] := rfl
@[simp] theorem initOperation_dict (s : State) : (initOperation s).dict = [] := rfl
@[simp] theorem initOperation_inp (s : State) : (initOperation s).inp = s.inp := rfl
@[simp] theorem initOperation_par (s : State) : (initOperation s).par = s.par := rfl
@[simp] theorem initOperation_ret (s : State) : (initOperation s).ret = s.ret := rfl
@[simp] theorem initOperation_schedule (s : State) : (initOperation s).schedule = s.schedule := rfl

/-! ### `startOperation` -/

@[simp] theorem startOperation_cfg (op : Op) (buf : List Byte) (s : State) : (startOperation op buf s).cfg = s.cfg := rfl
@[simp] theorem startOperation_cfgValid (op : Op) (buf : List Byte) (s : State) : (startOperation op buf s).cfgValid = s.cfgValid := rfl
@[simp] theorem startOperation_status (op : Op) (buf : List Byte) (s : State) : (startOperation op buf s).status = statusStarted op := rfl
@[simp] theorem startOperation_w (op : Op) (buf : List Byte) (s : State) : (startOperation op buf s).w = s.cfg.i := rfl
@[simp] theorem startOperation_ip (op : Op) (buf : List Byte) (s : State) : (startOperation op buf s).ip = 0 := rfl
@[simp] theorem startOperation_q (op : Op) (buf : List Byte) (s : State) : (startOperation op buf s).q = s.q := rfl
@[simp] theorem startOperation_bswBits (op : Op) (buf : List Byte) (s : State) : (startOperation op buf s).bswBits = [] := rfl
@[simp] theorem startOperation_bsrPos (op : Op) (buf : List Byte) (s : State) : (startOperation op buf s).bsrPos = 0 := rfl
@[simp] theorem startOperation_out (op : Op) (buf : List Byte) (s : State) : (startOperation op buf s).out = [] := rfl
@[simp] theorem startOperation_dict (op : Op) (buf : List Byte) (s : State) : (startOperation op buf s).dict = [] := rfl
@[simp] theorem startOperation_inp (op : Op) (buf : List Byte) (s : State) : (startOperation op buf s).inp = buf := rfl
@[simp] theorem startOperation_par (op : Op) (buf : List Byte) (s : State) : (startOperation op buf s).par = s.par := rfl
@[simp] theorem startOperation_ret (op : Op) (buf : List Byte) (s : State) : (startOperation op buf s).ret = s.ret := rfl
@[simp] theorem startOperation_schedule (op : Op) (buf : List Byte) (s : State) : (startOperation op buf s).schedule = s.schedule := rfl

/-! ### `stop` -/

@[simp] theorem stop_cfg (cause : Term) (s : State) : (stop cause s).cfg = s.cfg := rfl
@[simp] theorem stop_cfgValid (cause : Term) (s : State) : (stop cause s).cfgValid = s.cfgValid := rfl
@[simp] theorem stop_status (cause : Term) (s : State) : (stop cause s).status = statusStopped s.status cause := rfl
@[simp] theorem stop_w (cause : Term) (s : State) : (stop cause s).w = s.w := rfl
@[simp] theorem stop_ip (cause : Term) (s : State) : (stop cause s).ip = s.ip := rfl
@[simp] theorem stop_q (cause : Term) (s : State) : (stop cause s).q = s.q := rfl
@[simp] theorem stop_bswBits (cause : Term) (s : State) : (stop cause s).bswBits = s.bswBits := rfl
@[simp] theorem stop_bsrPos (cause : Term) (s : State) : (stop cause s).bsrPos = s.bsrPos := rfl
@[simp] theorem stop_out (cause : Term) (s : State) : (stop cause s).out = s.out := rfl
@[simp] theorem stop_dict (cause : Term) (s : State) : (stop cause s).dict = s.dict := rfl
@[simp] theorem stop_inp (cause : Term) (s : State) : (stop cause s).inp = s.inp := rfl
@[simp] theorem stop_par (cause : Term) (s : State) : (stop cause s).par = s.par := rfl
@[simp] theorem stop_ret (cause : Term) (s : State) : (stop cause s).ret = s.ret := rfl
@[simp] theorem stop_schedule (cause : Term) (s : State) : (stop cause s).schedule = s.schedule := rfl

/-! ### `stopAtEnd` -/

@[simp] theorem stopAtEnd_cfg (r : Reject) (s : State) : (stopAtEnd r s).cfg = s.cfg := rfl
@[simp] theorem stopAtEnd_cfgValid (r : Reject) (s : State) : (stopAtEnd r s).cfgValid = s.cfgValid := rfl
@[simp] theorem stopAtEnd_status (r : Reject) (s : State) : (stopAtEnd r s).status = statusStopped s.status (termOf r) := rfl
@[simp] theorem stopAtEnd_w (r : Reject) (s : State) : (stopAtEnd r s).w = s.w := rfl
@[simp] theorem stopAtEnd_ip (r : Reject) (s : State) : (stopAtEnd r s).ip = s.ip := rfl
@[simp] theorem stopAtEnd_q (r : Reject) (s : State) : (stopAtEnd r s).q = s.q := rfl
@[simp] theorem stopAtEnd_bswBits (r : Reject) (s : State) : (stopAtEnd r s).bswBits = s.bswBits := rfl
@[simp] theorem stopAtEnd_bsrPos (r : Reject) (s : State) : (stopAtEnd r s).bsrPos = 8 * s.inp.length := rfl
@[simp] theorem stopAtEnd_out (r : Reject) (s : State) : (stopAtEnd r s).out = s.out := rfl
@[simp] theorem stopAtEnd_dict (r : Reject) (s : State) : (stopAtEnd r s).dict = s.dict := rfl
@[simp] theorem stopAtEnd_inp (r : Reject) (s : State) : (stopAtEnd r s).inp = s.inp := rfl
@[simp] theorem stopAtEnd_par (r : Reject) (s : State) : (stopAtEnd r s).par = s.par := rfl
@[simp] theorem stopAtEnd_ret (r : Reject) (s : State) : (stopAtEnd r s).ret = s.ret := rfl
@[simp] theorem stopAtEnd_schedule (r : Reject) (s : State) : (stopAtEnd r s).schedule = s.schedule := rfl

/-! ### `reuseStore`: what it never changes, and its two cases -/

@[simp] theorem reuseStore_cfg (b : Byte) (s : State) : (reuseStore b s).cfg = s.cfg := by
  unfold reuseStore; split <;> rfl
@[simp] theorem reuseStore_cfgValid (b : Byte) (s : State) : (reuseStore b s).cfgValid = s.cfgValid := by
  unfold reuseStore; split <;> rfl
@[simp] theorem reuseStore_status (b : Byte) (s : State) : (reuseStore b s).status = s.status := by
  unfold reuseStore; split <;> rfl
@[simp] theorem reuseStore_ip (b : Byte) (s : State) : (reuseStore b s).ip = s.ip := by
  unfold reuseStore; split <;> rfl
@[simp] theorem reuseStore_q (b : Byte) (s : State) : (reuseStore b s).q = s.q := by
  unfold reuseStore; split <;> rfl
@[simp] theorem reuseStore_bswBits (b : Byte) (s : State) : (reuseStore b s).bswBits = s.bswBits := by
  unfold reuseStore; split <;> rfl
@[simp] theorem reuseStore_bsrPos (b : Byte) (s : State) : (reuseStore b s).bsrPos = s.bsrPos := by
  unfold reuseStore; split <;> rfl
@[simp] theorem reuseStore_out (b : Byte) (s : State) : (reuseStore b s).out = s.out := by
  unfold reuseStore; split <;> rfl
@[simp] theorem reuseStore_inp (b : Byte) (s : State) : (reuseStore b s).inp = s.inp := by
  unfold reuseStore; split <;> rfl
@[simp] theorem reuseStore_par (b : Byte) (s : State) : (reuseStore b s).par = s.par := by
  unfold reuseStore; split <;> rfl
@[simp] theorem reuseStore_ret (b : Byte) (s : State) : (reuseStore b s).ret = s.ret := by
  unfold reuseStore; split <;> rfl
@[simp] theorem reuseStore_schedule (b : Byte) (s : State) : (reuseStore b s).schedule = s.schedule := by
  unfold reuseStore; split <;> rfl

theorem reuseStore_on (b : Byte) (s : State) (h : reuse s.cfg = true) : reuseStore b s = storeAtCursor b s := by
  simp [reuseStore, h]

theorem reuseStore_off (b : Byte) (s : State) (h : reuse s.cfg = false) : reuseStore b s = s := by
  simp [reuseStore, h]

/-- A field that one iteration keeps is kept by any number of them. -/
theorem iterate_keeps {α : Type} (g : State → α) (f : State → State) (h : ∀ s, g (f s) = g s) (n : Nat) (s : State) :
    g (f^[n] s) = g s := by
  induction n generalizing s with
  | zero => rfl
  | succ n ih => rw [Function.iterate_succ_apply, ih, h]

/-! ### `copyByte`, one byte of a MATCH -/

@[simp] theorem copyByte_cfg (s : State) : (copyByte s).cfg = s.cfg := by
  simp [copyByte]
@[simp] theorem copyByte_cfgValid (s : State) : (copyByte s).cfgValid = s.cfgValid := by
  simp [copyByte]
@[simp] theorem copyByte_status (s : State) : (copyByte s).status = s.status := by
  simp [copyByte]
@[simp] theorem copyByte_ip (s : State) : (copyByte s).ip = s.ip := by
  simp [copyByte]
@[simp] theorem copyByte_q (s : State) : (copyByte s).q = cursorNext s.cfg s.q := by
  simp [copyByte]
@[simp] theorem copyByte_bswBits (s : State) : (copyByte s).bswBits = s.bswBits := by
  simp [copyByte]
@[simp] theorem copyByte_bsrPos (s : State) : (copyByte s).bsrPos = s.bsrPos := by
  simp [copyByte]
@[simp] theorem copyByte_out (s : State) : (copyByte s).out = s.out ++ [s.dict.read s.q] := by
  simp [copyByte]
@[simp] theorem copyByte_inp (s : State) : (copyByte s).inp = s.inp := by
  simp [copyByte]
@[simp] theorem copyByte_par (s : State) : (copyByte s).par = s.par := by
  simp [copyByte]
@[simp] theorem copyByte_ret (s : State) : (copyByte s).ret = s.ret := by
  simp [copyByte]
@[simp] theorem copyByte_schedule (s : State) : (copyByte s).schedule = s.schedule := by
  simp [copyByte]

/-! ### `emitByte`, one byte of a MATCH -/

@[simp] theorem emitByte_cfg (s : State) : (emitByte s).cfg = s.cfg := by
  simp [emitByte]
@[simp] theorem emitByte_cfgValid (s : State) : (emitByte s).cfgValid = s.cfgValid := by
  simp [emitByte]
@[simp] theorem emitByte_status (s : State) : (emitByte s).status = s.status := by
  simp [emitByte]
@[simp] theorem emitByte_ip (s : State) : (emitByte s).ip = s.ip + 1 := rfl
@[simp] theorem emitByte_q (s : State) : (emitByte s).q = cursorNext s.cfg s.q := by
  simp [emitByte]
@[simp] theorem emitByte_bswBits (s : State) : (emitByte s).bswBits = s.bswBits := by
  simp [emitByte]
@[simp] theorem emitByte_bsrPos (s : State) : (emitByte s).bsrPos = s.bsrPos := by
  simp [emitByte]
@[simp] theorem emitByte_out (s : State) : (emitByte s).out = s.out := by
  simp [emitByte]
@[simp] theorem emitByte_inp (s : State) : (emitByte s).inp = s.inp := by
  simp [emitByte]
@[simp] theorem emitByte_par (s : State) : (emitByte s).par = s.par := by
  simp [emitByte]
@[simp] theorem emitByte_ret (s : State) : (emitByte s).ret = s.ret := by
  simp [emitByte]
@[simp] theorem emitByte_schedule (s : State) : (emitByte s).schedule = s.schedule := by
  simp [emitByte]

/-! ### `copyMatch`: what it never changes -/

@[simp] theorem copyMatch_cfg (p len : Nat) (s : State) : (copyMatch p len s).cfg = s.cfg :=
  iterate_keeps (·.cfg) copyByte copyByte_cfg len _
@[simp] theorem copyMatch_cfgValid (p len : Nat) (s : State) : (copyMatch p len s).cfgValid = s.cfgValid :=
  iterate_keeps (·.cfgValid) copyByte copyByte_cfgValid len _
@[simp] theorem copyMatch_status (p len : Nat) (s : State) : (copyMatch p len s).status = s.status :=
  iterate_keeps (·.status) copyByte copyByte_status len _
@[simp] theorem copyMatch_ip (p len : Nat) (s : State) : (copyMatch p len s).ip = s.ip :=
  iterate_keeps (·.ip) copyByte copyByte_ip len _
@[simp] theorem copyMatch_bswBits (p len : Nat) (s : State) : (copyMatch p len s).bswBits = s.bswBits :=
  iterate_keeps (·.bswBits) copyByte copyByte_bswBits len _
@[simp] theorem copyMatch_bsrPos (p len : Nat) (s : State) : (copyMatch p len s).bsrPos = s.bsrPos :=
  iterate_keeps (·.bsrPos) copyByte copyByte_bsrPos len _
@[simp] theorem copyMatch_inp (p len : Nat) (s : State) : (copyMatch p len s).inp = s.inp :=
  iterate_keeps (·.inp) copyByte copyByte_inp len _
@[simp] theorem copyMatch_par (p len : Nat) (s : State) : (copyMatch p len s).par = s.par :=
  iterate_keeps (·.par) copyByte copyByte_par len _
@[simp] theorem copyMatch_ret (p len : Nat) (s : State) : (copyMatch p len s).ret = s.ret :=
  iterate_keeps (·.ret) copyByte copyByte_ret len _
@[simp] theorem copyMatch_schedule (p len : Nat) (s : State) : (copyMatch p len s).schedule = s.schedule :=
  iterate_keeps (·.schedule) copyByte copyByte_schedule len _

/-! ### `emitMatch`: what it never changes -/

@[simp] theorem emitMatch_cfg (p len : Nat) (s : State) : (emitMatch p len s).cfg = s.cfg :=
  iterate_keeps (·.cfg) emitByte emitByte_cfg len _
@[simp] theorem emitMatch_cfgValid (p len : Nat) (s : State) : (emitMatch p len s).cfgValid = s.cfgValid :=
  iterate_keeps (·.cfgValid) emitByte emitByte_cfgValid len _
@[simp] theorem emitMatch_status (p len : Nat) (s : State) : (emitMatch p len s).status = s.status :=
  iterate_keeps (·.status) emitByte emitByte_status len _
@[simp] theorem emitMatch_bswBits (p len : Nat) (s : State) : (emitMatch p len s).bswBits = s.bswBits :=
  iterate_keeps (·.bswBits) emitByte emitByte_bswBits len _
@[simp] theorem emitMatch_bsrPos (p len : Nat) (s : State) : (emitMatch p len s).bsrPos = s.bsrPos :=
  iterate_keeps (·.bsrPos) emitByte emitByte_bsrPos len _
@[simp] theorem emitMatch_out (p len : Nat) (s : State) : (emitMatch p len s).out = s.out :=
  iterate_keeps (·.out) emitByte emitByte_out len _
@[simp] theorem emitMatch_inp (p len : Nat) (s : State) : (emitMatch p len s).inp = s.inp :=
  iterate_keeps (·.inp) emitByte emitByte_inp len _
@[simp] theorem emitMatch_par (p len : Nat) (s : State) : (emitMatch p len s).par = s.par :=
  iterate_keeps (·.par) emitByte emitByte_par len _
@[simp] theorem emitMatch_ret (p len : Nat) (s : State) : (emitMatch p len s).ret = s.ret :=
  iterate_keeps (·.ret) emitByte emitByte_ret len _
@[simp] theorem emitMatch_schedule (p len : Nat) (s : State) : (emitMatch p len s).schedule = s.schedule :=
  iterate_keeps (·.schedule) emitByte emitByte_schedule len _

/-! ### `decodedLit` -/

@[simp] theorem decodedLit_cfg (b : Byte) (s : State) : (decodedLit b s).cfg = s.cfg := rfl
@[simp] theorem decodedLit_cfgValid (b : Byte) (s : State) : (decodedLit b s).cfgValid = s.cfgValid := rfl
@[simp] theorem decodedLit_status (b : Byte) (s : State) : (decodedLit b s).status = s.status := rfl
@[simp] theorem decodedLit_w (b : Byte) (s : State) : (decodedLit b s).w = cursorNext s.cfg s.w := rfl
@[simp] theorem decodedLit_ip (b : Byte) (s : State) : (decodedLit b s).ip = s.ip := rfl
@[simp] theorem decodedLit_q (b : Byte) (s : State) : (decodedLit b s).q = s.q := rfl
@[simp] theorem decodedLit_bswBits (b : Byte) (s : State) : (decodedLit b s).bswBits = s.bswBits := rfl
@[simp] theorem decodedLit_bsrPos (b : Byte) (s : State) : (decodedLit b s).bsrPos = s.bsrPos := rfl
@[simp] theorem decodedLit_out (b : Byte) (s : State) : (decodedLit b s).out = s.out ++ [b] := rfl
@[simp] theorem decodedLit_dict (b : Byte) (s : State) : (decodedLit b s).dict = s.dict.write s.w b := rfl
@[simp] theorem decodedLit_inp (b : Byte) (s : State) : (decodedLit b s).inp = s.inp := rfl
@[simp] theorem decodedLit_par (b : Byte) (s : State) : (decodedLit b s).par = s.par := rfl
@[simp] theorem decodedLit_ret (b : Byte) (s : State) : (decodedLit b s).ret = s.ret := rfl
@[simp] theorem decodedLit_schedule (b : Byte) (s : State) : (decodedLit b s).schedule = s.schedule := rfl

/-! ### `emittedLit` -/

@[simp] theorem emittedLit_cfg (b : Byte) (s : State) : (emittedLit b s).cfg = s.cfg := rfl
@[simp] theorem emittedLit_cfgValid (b : Byte) (s : State) : (emittedLit b s).cfgValid = s.cfgValid := rfl
@[simp] theorem emittedLit_status (b : Byte) (s : State) : (emittedLit b s).status = s.status := rfl
@[simp] theorem emittedLit_w (b : Byte) (s : State) : (emittedLit b s).w = cursorNext s.cfg s.w := rfl
@[simp] theorem emittedLit_ip (b : Byte) (s : State) : (emittedLit b s).ip = s.ip + 1 := rfl
@[simp] theorem emittedLit_q (b : Byte) (s : State) : (emittedLit b s).q = s.q := rfl
@[simp] theorem emittedLit_bswBits (b : Byte) (s : State) : (emittedLit b s).bswBits = s.bswBits ++ fieldBits 1 1 ++ fieldBits 8 b.toNat := rfl
@[simp] theorem emittedLit_bsrPos (b : Byte) (s : State) : (emittedLit b s).bsrPos = s.bsrPos := rfl
@[simp] theorem emittedLit_out (b : Byte) (s : State) : (emittedLit b s).out = s.out := rfl
@[simp] theorem emittedLit_dict (b : Byte) (s : State) : (emittedLit b s).dict = s.dict.write s.w b := rfl
@[simp] theorem emittedLit_inp (b : Byte) (s : State) : (emittedLit b s).inp = s.inp := rfl
@[simp] theorem emittedLit_par (b : Byte) (s : State) : (emittedLit b s).par = s.par := rfl
@[simp] theorem emittedLit_ret (b : Byte) (s : State) : (emittedLit b s).ret = s.ret := rfl
@[simp] theorem emittedLit_schedule (b : Byte) (s : State) : (emittedLit b s).schedule = s.schedule := rfl

/-! ### `emittedMatch`: what it never changes, and the bits it writes -/

@[simp] theorem emittedMatch_cfg (pos lenf : Nat) (s : State) :
    (emittedMatch pos lenf s).cfg = s.cfg := by
  simp [emittedMatch]
@[simp] theorem emittedMatch_cfgValid (pos lenf : Nat) (s : State) :
    (emittedMatch pos lenf s).cfgValid = s.cfgValid := by
  simp [emittedMatch]
@[simp] theorem emittedMatch_status (pos lenf : Nat) (s : State) :
    (emittedMatch pos lenf s).status = s.status := by
  simp [emittedMatch]
@[simp] theorem emittedMatch_bswBits (pos lenf : Nat) (s : State) :
    (emittedMatch pos lenf s).bswBits = s.bswBits ++ fieldBits 1 0 ++ fieldBits s.cfg.p pos ++ fieldBits s.cfg.l lenf := by
  simp [emittedMatch]
@[simp] theorem emittedMatch_bsrPos (pos lenf : Nat) (s : State) :
    (emittedMatch pos lenf s).bsrPos = s.bsrPos := by
  simp [emittedMatch]
@[simp] theorem emittedMatch_out (pos lenf : Nat) (s : State) :
    (emittedMatch pos lenf s).out = s.out := by
  simp [emittedMatch]
@[simp] theorem emittedMatch_inp (pos lenf : Nat) (s : State) :
    (emittedMatch pos lenf s).inp = s.inp := by
  simp [emittedMatch]
@[simp] theorem emittedMatch_par (pos lenf : Nat) (s : State) :
    (emittedMatch pos lenf s).par = s.par := by
  simp [emittedMatch]
@[simp] theorem emittedMatch_ret (pos lenf : Nat) (s : State) :
    (emittedMatch pos lenf s).ret = s.ret := by
  simp [emittedMatch]
@[simp] theorem emittedMatch_schedule (pos lenf : Nat) (s : State) :
    (emittedMatch pos lenf s).schedule = s.schedule := by
  simp [emittedMatch]

end Sys2Proof.Machine
end

