-- ==== Sys2Proof/Laws/Window.lean ====
section
/-! SUPPORT. Laws of the window: the cursors' wrap (20_memory.md R52), the stores at `W` (10_state.md R33), and what the
two copy loops do in one go (42_decoder.md R154, 41_encoder.md R128, R130). -/

namespace Sys2Proof.Machine

/-! ### Cursors -/

theorem dictSize_pos (c : Cfg) : 0 < dictSize c := Nat.two_pow_pos _

theorem cursorNext_lt (c : Cfg) (x : Nat) : cursorNext c x < dictSize c := Nat.mod_lt _ (dictSize_pos c)

theorem wrapAt_lt (c : Cfg) (x k : Nat) : wrapAt c x k < dictSize c := Nat.mod_lt _ (dictSize_pos c)

theorem wrapAt_zero {c : Cfg} {x : Nat} (h : x < dictSize c) : wrapAt c x 0 = x := by
  simp [wrapAt, Nat.mod_eq_of_lt h]

theorem wrapAt_cursorNext (c : Cfg) (x k : Nat) : wrapAt c (cursorNext c x) k = wrapAt c x (k + 1) := by
  simp only [wrapAt, cursorNext, Nat.mod_add_mod]
  congr 1; omega

theorem cursorNext_of_lt {c : Cfg} {x : Nat} (h : x + 1 < dictSize c) : cursorNext c x = x + 1 :=
  Nat.mod_eq_of_lt h

theorem reuse_iff {c : Cfg} : reuse c = true ↔ c.r = 1#1 := by simp [reuse]

theorem inDict_iff {c : Cfg} {i : Nat} : inDict c i = true ↔ i < dictSize c := by simp [inDict]

/-! ### Stores at the write cursor -/

theorem storedFrom_wf {c : Cfg} {w : Nat} {bs : List Byte} {m : Memory} (h : m.wf = true) :
    (storedFrom c w bs m).wf = true := by
  induction bs generalizing w m with
  | nil => exact h
  | cons b bs ih => exact ih (Memory.write_wf h w b)

theorem storedFrom_below {c : Cfg} {w : Nat} {bs : List Byte} {m : Memory} (hw : w < dictSize c)
    (h : m.below (dictSize c) = true) : (storedFrom c w bs m).below (dictSize c) = true := by
  induction bs generalizing w m with
  | nil => exact h
  | cons b bs ih => exact ih (cursorNext_lt c w) (Memory.write_below h hw b)

theorem storedFrom_read_other {c : Cfg} {w a : Nat} {bs : List Byte} {m : Memory} (hw : w < dictSize c)
    (h : ∀ k, k < bs.length → a ≠ wrapAt c w k) : (storedFrom c w bs m).read a = m.read a := by
  induction bs generalizing w m with
  | nil => rfl
  | cons b bs ih =>
    have h0 : a ≠ w := by simpa [wrapAt_zero hw] using h 0 (by simp)
    rw [storedFrom, ih (cursorNext_lt c w), Memory.read_write_other h0]
    intro k hk
    rw [wrapAt_cursorNext]
    exact h (k + 1) (by simpa using hk)

/-! ### The decoder's copy loop -/

/-- The bytes DEC.COPY produces, each read after the earlier ones have been stored (42_decoder.md R154). -/
def copiedBytes (c : Cfg) : Nat → Nat → Nat → Memory → List Byte
  | 0, _, _, _ => []
  | n + 1, q, w, m =>
    m.read q :: copiedBytes c n (cursorNext c q) (cursorNext c w) (if reuse c then m.write w (m.read q) else m)

@[simp] theorem copiedBytes_length (c : Cfg) (n q w : Nat) (m : Memory) : (copiedBytes c n q w m).length = n := by
  induction n generalizing q w m with
  | zero => rfl
  | succ n ih => simp [copiedBytes, ih]

theorem copiedBytes_off {c : Cfg} (hr : reuse c = false) (n q w : Nat) (m : Memory) (hq : q < dictSize c) :
    copiedBytes c n q w m = (List.range n).map fun k => m.read (wrapAt c q k) := by
  induction n generalizing q w with
  | zero => rfl
  | succ n ih =>
    rw [copiedBytes, hr, List.range_succ_eq_map, List.map_cons, List.map_map, wrapAt_zero hq]
    simp [ih _ _ (cursorNext_lt c q), wrapAt_cursorNext, Function.comp_def]

/-- Without reuse the write cursor plays no part. -/
theorem copiedBytes_off_cursor {c : Cfg} (hr : reuse c = false) (n q w w' : Nat) (m : Memory) :
    copiedBytes c n q w m = copiedBytes c n q w' m := by
  induction n generalizing q w w' with
  | zero => rfl
  | succ n ih => simpa [copiedBytes, hr] using ih (cursorNext c q) (cursorNext c w) (cursorNext c w')

theorem copiedBytes_on {c : Cfg} (hr : reuse c = true) (n q w : Nat) (m : Memory) (hq : q < dictSize c) (k : Nat)
    (hk : k < n) : (copiedBytes c n q w m)[k]? =
      some ((storedFrom c w ((copiedBytes c n q w m).take k) m).read (wrapAt c q k)) := by
  induction n generalizing q w m k with
  | zero => omega
  | succ n ih =>
    cases k with
    | zero => simp [copiedBytes, storedFrom, wrapAt_zero hq]
    | succ k =>
      simp only [copiedBytes, hr, if_true, List.getElem?_cons_succ, List.take_succ_cons, storedFrom]
      rw [ih _ _ _ (cursorNext_lt c q) k (by omega), wrapAt_cursorNext]

/-- DEC.COPY's loop in one go. -/
theorem copyByte_iterate (n : Nat) (s : State) (hq : s.q < dictSize s.cfg)
    (hw : reuse s.cfg = true → s.w < dictSize s.cfg) :
    copyByte^[n] s = { s with
      q := wrapAt s.cfg s.q n
      w := if reuse s.cfg then wrapAt s.cfg s.w n else s.w
      out := s.out ++ copiedBytes s.cfg n s.q s.w s.dict
      dict := if reuse s.cfg then storedFrom s.cfg s.w (copiedBytes s.cfg n s.q s.w s.dict) s.dict else s.dict } := by
  induction n generalizing s with
  | zero =>
    by_cases hr : reuse s.cfg = true
    · simp [copiedBytes, storedFrom, wrapAt_zero hq, wrapAt_zero (hw hr), hr]
    · simp [copiedBytes, wrapAt_zero hq, hr]
  | succ n ih =>
    rw [Function.iterate_succ_apply, ih (copyByte s) (by simpa using cursorNext_lt s.cfg s.q)]
    · by_cases hr : reuse s.cfg = true
      · simp [copyByte, reuseStore_on, storeAtCursor, hr, wrapAt_cursorNext, copiedBytes, storedFrom]
      · have hr' : reuse s.cfg = false := by simpa using hr
        simp [copyByte, reuseStore, hr', wrapAt_cursorNext, copiedBytes,
          copiedBytes_off_cursor hr' n _ s.w (cursorNext s.cfg s.w)]
    · intro hr
      simp only [copyByte_cfg] at hr ⊢
      simpa [copyByte, reuseStore_on, hr] using cursorNext_lt s.cfg s.w

/-- DEC.COPY in one go. -/
theorem copyMatch_eq (p len : Nat) (s : State) (hp : p < dictSize s.cfg)
    (hw : reuse s.cfg = true → s.w < dictSize s.cfg) :
    copyMatch p len s = { s with
      q := wrapAt s.cfg p len
      w := if reuse s.cfg then wrapAt s.cfg s.w len else s.w
      out := s.out ++ copiedBytes s.cfg len p s.w s.dict
      dict := if reuse s.cfg then storedFrom s.cfg s.w (copiedBytes s.cfg len p s.w s.dict) s.dict else s.dict } :=
  copyByte_iterate len { s with q := p } hp hw

/-! ### The encoder's emit loop -/

theorem emittedStores_off {c : Cfg} {q w : Nat} {b : Byte} {bs : List Byte} {m : Memory} (hr : reuse c = false) :
    emittedStores c q w (b :: bs) m = emittedStores c (cursorNext c q) (cursorNext c w) bs (m.write q b) := by
  simp [emittedStores, hr]

theorem emittedStores_on {c : Cfg} {q w : Nat} {b : Byte} {bs : List Byte} {m : Memory} (hr : reuse c = true) :
    emittedStores c q w (b :: bs) m =
      emittedStores c (cursorNext c q) (cursorNext c w) bs ((m.write q b).write w b) := by
  simp [emittedStores, hr]

/-- Without reuse the write cursor plays no part. -/
theorem emittedStores_off_cursor {c : Cfg} (hr : reuse c = false) (q w w' : Nat) (bs : List Byte) (m : Memory) :
    emittedStores c q w bs m = emittedStores c q w' bs m := by
  induction bs generalizing q w w' m with
  | nil => rfl
  | cons b bs ih => rw [emittedStores_off hr, emittedStores_off hr, ih]

/-- ENC.MATCH's loop in one go. -/
theorem emitByte_iterate (n : Nat) (s : State) (hn : s.ip + n ≤ s.inp.length) (hq : s.q < dictSize s.cfg)
    (hw : reuse s.cfg = true → s.w < dictSize s.cfg) :
    emitByte^[n] s = { s with
      q := wrapAt s.cfg s.q n
      ip := s.ip + n
      w := if reuse s.cfg then wrapAt s.cfg s.w n else s.w
      dict := emittedStores s.cfg s.q s.w ((s.inp.drop s.ip).take n) s.dict } := by
  induction n generalizing s with
  | zero =>
    by_cases hr : reuse s.cfg = true
    · simp [emittedStores, wrapAt_zero hq, wrapAt_zero (hw hr), hr]
    · simp [emittedStores, wrapAt_zero hq, hr]
  | succ n ih =>
    have hb : (s.inp.drop s.ip).take (n + 1) = inputByte s :: (s.inp.drop (s.ip + 1)).take n := by
      have hlt : s.ip < s.inp.length := by omega
      rw [List.drop_eq_getElem_cons hlt, List.take_succ_cons]
      simp [inputByte, List.getD_eq_getElem?_getD, List.getElem?_eq_getElem hlt]
    rw [Function.iterate_succ_apply, ih (emitByte s) (by simp; omega) (by simpa using cursorNext_lt s.cfg s.q)]
    · rw [hb]
      by_cases hr : reuse s.cfg = true
      · simp [emitByte, reuseStore_on, storeAtCursor, hr, wrapAt_cursorNext, emittedStores]
        omega
      · have hr' : reuse s.cfg = false := by simpa using hr
        rw [emittedStores_off hr', emittedStores_off_cursor hr' _ (cursorNext s.cfg s.w) s.w]
        simp [emitByte, reuseStore, hr', wrapAt_cursorNext]
        omega
    · intro hr
      simp only [emitByte_cfg] at hr ⊢
      simpa [emitByte, reuseStore_on, hr] using cursorNext_lt s.cfg s.w

/-! ### A match inside the window (41_encoder.md R130, 42_decoder.md R162) -/

/-- The memory holds `bs` at `p`, taken flat. -/
def HoldsAt (c : Cfg) (m : Memory) (p : Nat) (bs : List Byte) : Prop :=
  p + bs.length ≤ dictSize c ∧ ∀ k, k < bs.length → bs[k]? = some (m.read (p + k))

theorem HoldsAt.head {c : Cfg} {m : Memory} {p : Nat} {b : Byte} {bs : List Byte} (h : HoldsAt c m p (b :: bs)) :
    b = m.read p := by
  simpa using h.2 0 (by simp)

theorem HoldsAt.tail {c : Cfg} {m : Memory} {p : Nat} {b : Byte} {bs : List Byte} (h : HoldsAt c m p (b :: bs)) :
    HoldsAt c m (p + 1) bs := by
  refine ⟨by have := h.1; simp only [List.length_cons] at this; omega, fun k hk => ?_⟩
  have := h.2 (k + 1) (by simpa using hk)
  simpa [Nat.add_assoc, Nat.add_comm 1 k] using this

theorem HoldsAt.write {c : Cfg} {m : Memory} {p w : Nat} {bs : List Byte} (h : HoldsAt c m p bs)
    (hw : p + bs.length ≤ w ∨ w < p) (b : Byte) : HoldsAt c (m.write w b) p bs := by
  refine ⟨h.1, fun k hk => ?_⟩
  rw [Memory.read_write_other (by omega)]
  exact h.2 k hk

/-- The cursor stays clear of the region still to be read: at or past its end, or before its start. -/
theorem cursor_stays_clear {c : Cfg} {p w n : Nat} (hw : w < dictSize c)
    (h : p + (n + 1) ≤ w ∨ w < p) : p + 1 + n ≤ cursorNext c w ∨ cursorNext c w < p + 1 := by
  by_cases e : w + 1 < dictSize c
  · rw [cursorNext_of_lt e]; omega
  · have : cursorNext c w = 0 := by
      unfold cursorNext
      rw [show w + 1 = dictSize c by omega, Nat.mod_self]
    omega

/-- Under `R = 1`, a match whose region the write cursor stays clear of: the write-back changes nothing, so the loop
makes only the stores at `W` (41_encoder.md R130). -/
theorem emittedStores_reuse {c : Cfg} (hr : reuse c = true) (p w : Nat) (bs : List Byte) (m : Memory)
    (hm : m.wf = true) (h : HoldsAt c m p bs) (hw : w < dictSize c) (hc : p + bs.length ≤ w ∨ w < p) :
    emittedStores c p w bs m = storedFrom c w bs m := by
  induction bs generalizing p w m with
  | nil => rfl
  | cons b bs ih =>
    have hlen : p + (bs.length + 1) ≤ dictSize c := by simpa using h.1
    have hne : p ≠ w := by simp only [List.length_cons] at hc; omega
    have hback : m.write p b = m := by rw [h.head]; exact Memory.write_read_self hm p
    have hclear := cursor_stays_clear hw (by simpa using hc)
    rw [emittedStores_on hr, hback, storedFrom]
    cases bs with
    | nil => rfl
    | cons b' bs' =>
      have hnext : cursorNext c p = p + 1 := cursorNext_of_lt (by simp only [List.length_cons] at hlen; omega)
      rw [hnext]
      refine ih _ _ _ (Memory.write_wf hm w b) (h.tail.write ?_ b) (cursorNext_lt c w) ?_
      · simp only [List.length_cons] at hc ⊢; omega
      · simpa using hclear

/-- Under `R = 0` the write-back of a match changes nothing (41_encoder.md R129). -/
theorem emittedStores_noReuse {c : Cfg} (hr : reuse c = false) (p w : Nat) (bs : List Byte) (m : Memory)
    (hm : m.wf = true) (h : HoldsAt c m p bs) : emittedStores c p w bs m = m := by
  induction bs generalizing p w with
  | nil => rfl
  | cons b bs ih =>
    have hlen : p + (bs.length + 1) ≤ dictSize c := by simpa using h.1
    have hback : m.write p b = m := by rw [h.head]; exact Memory.write_read_self hm p
    rw [emittedStores_off hr, hback]
    cases bs with
    | nil => rfl
    | cons b' bs' =>
      have hnext : cursorNext c p = p + 1 := cursorNext_of_lt (by simp only [List.length_cons] at hlen; omega)
      rw [hnext]
      exact ih _ _ h.tail

/-- Under `R = 1`, the decoder's copy of a region the write cursor stays clear of gives the region's bytes. -/
theorem copiedBytes_reuse {c : Cfg} (hr : reuse c = true) (p w : Nat) (bs : List Byte) (m : Memory)
    (h : HoldsAt c m p bs) (hw : w < dictSize c) (hc : p + bs.length ≤ w ∨ w < p) :
    copiedBytes c bs.length p w m = bs := by
  induction bs generalizing p w m with
  | nil => rfl
  | cons b bs ih =>
    have hlen : p + (bs.length + 1) ≤ dictSize c := by simpa using h.1
    have hclear := cursor_stays_clear hw (by simpa using hc)
    rw [List.length_cons, copiedBytes, ← h.head, if_pos hr]
    congr 1
    cases bs with
    | nil => rfl
    | cons b' bs' =>
      have hnext : cursorNext c p = p + 1 := cursorNext_of_lt (by simp only [List.length_cons] at hlen; omega)
      rw [hnext]
      refine ih _ _ _ (h.tail.write ?_ b) (cursorNext_lt c w) ?_
      · simp only [List.length_cons] at hc ⊢; omega
      · simpa using hclear

/-- Under `R = 0`, the decoder's copy of a flat region gives the region's bytes. -/
theorem copiedBytes_noReuse {c : Cfg} (hr : reuse c = false) (p w : Nat) (bs : List Byte) (m : Memory)
    (h : HoldsAt c m p bs) : copiedBytes c bs.length p w m = bs := by
  induction bs generalizing p w with
  | nil => rfl
  | cons b bs ih =>
    have hlen : p + (bs.length + 1) ≤ dictSize c := by simpa using h.1
    rw [List.length_cons, copiedBytes, ← h.head, hr]
    simp only [Bool.false_eq_true, if_false]
    congr 1
    cases bs with
    | nil => rfl
    | cons b' bs' =>
      have hnext : cursorNext c p = p + 1 := cursorNext_of_lt (by simp only [List.length_cons] at hlen; omega)
      rw [hnext]
      exact ih _ _ h.tail

/-! ### The range and form of what the loops leave -/

theorem emittedStores_wf {c : Cfg} {q w : Nat} {bs : List Byte} {m : Memory} (h : m.wf = true) :
    (emittedStores c q w bs m).wf = true := by
  induction bs generalizing q w m with
  | nil => exact h
  | cons b bs ih =>
    refine ih ?_
    split
    · exact Memory.write_wf (Memory.write_wf h q b) w b
    · exact Memory.write_wf h q b

theorem emittedStores_below {c : Cfg} {q w : Nat} {bs : List Byte} {m : Memory} (hq : q < dictSize c)
    (hw : reuse c = true → w < dictSize c) (h : m.below (dictSize c) = true) :
    (emittedStores c q w bs m).below (dictSize c) = true := by
  induction bs generalizing q w m with
  | nil => exact h
  | cons b bs ih =>
    refine ih (cursorNext_lt c q) (fun _ => cursorNext_lt c w) ?_
    split
    · exact Memory.write_below (Memory.write_below h hq b) (hw ‹_›) b
    · exact Memory.write_below h hq b

theorem emittedStores_read_other {c : Cfg} {q w a : Nat} {bs : List Byte} {m : Memory} (hq : q < dictSize c)
    (hw : reuse c = true → w < dictSize c) (h1 : ∀ k, k < bs.length → a ≠ wrapAt c q k)
    (h2 : reuse c = true → ∀ k, k < bs.length → a ≠ wrapAt c w k) :
    (emittedStores c q w bs m).read a = m.read a := by
  induction bs generalizing q w m with
  | nil => rfl
  | cons b bs ih =>
    have ha : a ≠ q := by simpa [wrapAt_zero hq] using h1 0 (by simp)
    rw [emittedStores, ih (cursorNext_lt c q) (fun _ => cursorNext_lt c w)]
    · split
      · rename_i hr
        have hb : a ≠ w := by simpa [wrapAt_zero (hw hr)] using h2 hr 0 (by simp)
        rw [Memory.read_write_other hb, Memory.read_write_other ha]
      · rw [Memory.read_write_other ha]
    · intro k hk
      rw [wrapAt_cursorNext]
      exact h1 (k + 1) (by simpa using hk)
    · intro hr k hk
      rw [wrapAt_cursorNext]
      exact h2 hr (k + 1) (by simpa using hk)

end Sys2Proof.Machine
end

