-- ==== Sys2Proof/Laws/Ops.lean ====
section
/-! SUPPORT. One lemma for each shared operation and meaning: everything it can do. -/

namespace Sys2Proof.Machine

/-! ### Status, bounds and output -/

theorem activeOp_busy {st : Status} (h : st.state = .busy) : activeOp st = st.op := by simp [activeOp, h]

theorem activeOp_decode {st : Status} : activeOp st = .decode ↔ st.state = .busy ∧ st.op = .decode := by
  cases h : st.state <;> simp [activeOp, h]

theorem activeOp_encode {st : Status} : activeOp st = .encode ↔ st.state = .busy ∧ st.op = .encode := by
  cases h : st.state <;> simp [activeOp, h]

theorem activeOp_notBusy {st : Status} (h : st.state ≠ .busy) : activeOp st = .none := by
  cases h' : st.state <;> simp_all [activeOp]

@[simp] theorem withinBound_none (x : Nat) : withinBound none x = true := rfl

theorem withinBound_iff {b : Option Nat} {x : Nat} : withinBound b x = true ↔ ∀ k, b = some k → x ≤ k := by
  cases b <;> simp [withinBound]

@[simp] theorem withinBound_zero (b : Option Nat) : withinBound b 0 = true := by
  cases b <;> simp [withinBound]

theorem outputOf_encode {s : State} (h : s.status.op = .encode) : outputOf s = packBytes s.bswBits := by
  simp [outputOf, h, writtenBytes]

theorem outputOf_decode {s : State} (h : s.status.op = .decode) : outputOf s = s.out := by
  simp [outputOf, h]

theorem outputFits_encode {s : State} (h : s.status.op = .encode) :
    outputFits s = withinBound s.par.outMax ((s.bswBits.length + 7) / 8) := by
  have e : (s.bswBits.length + padCount s.bswBits.length) / 8 = (s.bswBits.length + 7) / 8 := by
    unfold padCount; omega
  simp [outputFits, outputOf_encode h, e]

theorem outputFits_decode {s : State} (h : s.status.op = .decode) :
    outputFits s = withinBound s.par.outMax s.out.length := by
  simp [outputFits, outputOf_decode h]

theorem outputFits_noBound {s : State} (h : s.par.outMax = none) : outputFits s = true := by
  simp [outputFits, h]

/-- The end of a token answers a next state only with the state it was given, within OUT_MAX. -/
theorem endToken_next {s t : State} : endToken s = .next t ↔ outputFits s = true ∧ t = s := by
  by_cases h : outputFits s = true
  · simp only [endToken, h, if_true, true_and]
    exact ⟨fun e => by cases e; rfl, fun e => by rw [e]⟩
  · simp [endToken, h]

theorem endToken_fits {s : State} (h : outputFits s = true) : endToken s = .next s := by simp [endToken, h]

theorem endToken_notFits {s : State} (h : outputFits s = false) : endToken s = .refused .outputTooLong := by
  simp [endToken, h]

theorem endToken_ne_fault {s : State} (f : Fault) : endToken s ≠ .fault f := by
  unfold endToken; split <;> simp

theorem endToken_refused {s : State} {r : Refusal} (h : endToken s = .refused r) :
    r = .outputTooLong ∧ outputFits s = false := by
  unfold endToken at h
  split at h
  · cases h
  · cases h; simp_all

/-! ### Tokens -/

theorem wellFormed_matchRef {P L pos lenf : Nat} :
    wellFormed P L (.matchRef pos lenf) = true ↔ pos < 2 ^ P ∧ lenf < 2 ^ L := by
  simp [wellFormed]

theorem reuseCursorOk_iff {s : State} : reuseCursorOk s = true ↔ (reuse s.cfg = true → s.w < dictSize s.cfg) := by
  cases h : reuse s.cfg <;> simp [reuseCursorOk, h, inDict]

theorem reuseCursorOk_of_lt {s : State} (h : s.w < dictSize s.cfg) : reuseCursorOk s = true :=
  reuseCursorOk_iff.mpr fun _ => h

theorem execLit_decode {s : State} (h : s.Running .decode) (b : Byte) :
    exec (.lit b) s = if inDict s.cfg s.w then endToken (decodedLit b s) else .fault .dictIndexOutOfRange := by
  simp [exec, execLit, activeOp_decode.mpr h, decLit]

theorem execLit_encode {s : State} (h : s.Running .encode) (b : Byte) : exec (.lit b) s = encLit b s := by
  simp [exec, execLit, activeOp_encode.mpr h]

theorem execMatchRef_decode {s : State} (h : s.Running .decode) {pos lenf : Nat} (hp : pos < 2 ^ s.cfg.p)
    (hl : lenf < 2 ^ s.cfg.l) : exec (.matchRef pos lenf) s = decMatch pos lenf s := by
  simp [exec, execMatchRef, activeOp_decode.mpr h, wellFormed_matchRef.mpr ⟨hp, hl⟩]

theorem execMatchRef_encode {s : State} (h : s.Running .encode) {pos lenf : Nat} (hp : pos < 2 ^ s.cfg.p)
    (hl : lenf < 2 ^ s.cfg.l) : exec (.matchRef pos lenf) s = encMatch pos lenf s := by
  simp [exec, execMatchRef, activeOp_encode.mpr h, wellFormed_matchRef.mpr ⟨hp, hl⟩]

/-! The meaning of a token wherever it is not stopped by name: its rule's effect, then the end of the token. -/

theorem execLit_decode_eq {s : State} {b : Byte} (h : s.Running .decode) (hw : s.w < dictSize s.cfg) :
    exec (.lit b) s = endToken (decodedLit b s) := by
  rw [execLit_decode h, if_pos (inDict_iff.mpr hw)]

theorem execLit_encode_eq {s : State} {b : Byte} (h : s.Running .encode) (hb : s.inp[s.ip]? = some b)
    (hw : s.w < dictSize s.cfg) : exec (.lit b) s = endToken (emittedLit b s) := by
  rw [execLit_encode h]
  simp [encLit, hb, inDict_iff.mpr hw]

theorem execMatchRef_decode_eq {s : State} {pos lenf : Nat} (h : s.Running .decode) (hp : pos < 2 ^ s.cfg.p)
    (hl : lenf < 2 ^ s.cfg.l) (hw : reuse s.cfg = true → s.w < dictSize s.cfg) :
    exec (.matchRef pos lenf) s = endToken (copyMatch pos (matchLength s.cfg lenf) s) := by
  rw [execMatchRef_decode h hp hl, decMatch, if_pos (reuseCursorOk_iff.mpr hw)]

theorem execMatchRef_encode_eq {s : State} {pos lenf : Nat} (h : s.Running .encode) (hp : pos < 2 ^ s.cfg.p)
    (hl : lenf < 2 ^ s.cfg.l) (hn : s.ip + matchLength s.cfg lenf ≤ s.inp.length)
    (hw : reuse s.cfg = true → s.w < dictSize s.cfg) :
    exec (.matchRef pos lenf) s = endToken (emittedMatch pos lenf s) := by
  rw [execMatchRef_encode h hp hl, encMatch, if_pos hn, if_pos (reuseCursorOk_iff.mpr hw)]

/-- If LIT answers next, an operation runs, the write cursor is in the dictionary, and the state is the one its rule
gives. -/
theorem execLit_next {b : Byte} {s t : State} (h : exec (.lit b) s = .next t) :
    s.w < dictSize s.cfg ∧ outputFits t = true ∧
      ((s.Running .decode ∧ t = decodedLit b s) ∨
       (s.Running .encode ∧ s.inp[s.ip]? = some b ∧ t = emittedLit b s)) := by
  cases ha : activeOp s.status with
  | none => simp [exec, execLit, ha] at h
  | decode =>
    have hr := activeOp_decode.mp ha
    rw [execLit_decode hr] at h
    split at h
    · rename_i hw
      obtain ⟨hf, rfl⟩ := endToken_next.mp h
      exact ⟨inDict_iff.mp hw, hf, .inl ⟨hr, rfl⟩⟩
    · cases h
  | encode =>
    have hr := activeOp_encode.mp ha
    rw [execLit_encode hr] at h
    unfold encLit at h
    split at h
    · cases h
    · rename_i c hc
      split at h
      · rename_i hcb
        split at h
        · rename_i hw
          obtain ⟨hf, rfl⟩ := endToken_next.mp h
          exact ⟨inDict_iff.mp hw, hf, .inr ⟨hr, hcb ▸ hc, rfl⟩⟩
        · cases h
      · cases h

/-- If MATCH answers next, an operation runs, its operands fit, its stores are in range, and the state is the one its
rule gives. -/
theorem execMatchRef_next {pos lenf : Nat} {s t : State} (h : exec (.matchRef pos lenf) s = .next t) :
    pos < dictSize s.cfg ∧ lenf < 2 ^ s.cfg.l ∧ (reuse s.cfg = true → s.w < dictSize s.cfg) ∧ outputFits t = true ∧
      ((s.Running .decode ∧ t = copyMatch pos (matchLength s.cfg lenf) s) ∨
       (s.Running .encode ∧ s.ip + matchLength s.cfg lenf ≤ s.inp.length ∧ t = emittedMatch pos lenf s)) := by
  cases ha : activeOp s.status with
  | none => simp [exec, execMatchRef, ha] at h
  | decode =>
    have hr := activeOp_decode.mp ha
    simp only [exec, execMatchRef, ha] at h
    split at h
    · rename_i hwf
      obtain ⟨hp, hl⟩ := wellFormed_matchRef.mp hwf
      unfold decMatch at h
      split at h
      · rename_i hc
        obtain ⟨hf, rfl⟩ := endToken_next.mp h
        exact ⟨hp, hl, reuseCursorOk_iff.mp hc, hf, .inl ⟨hr, rfl⟩⟩
      · cases h
    · cases h
  | encode =>
    have hr := activeOp_encode.mp ha
    simp only [exec, execMatchRef, ha] at h
    split at h
    · rename_i hwf
      obtain ⟨hp, hl⟩ := wellFormed_matchRef.mp hwf
      unfold encMatch at h
      split at h
      · rename_i hn
        split at h
        · rename_i hc
          obtain ⟨hf, rfl⟩ := endToken_next.mp h
          exact ⟨hp, hl, reuseCursorOk_iff.mp hc, hf, .inr ⟨hr, hn, rfl⟩⟩
        · cases h
      · cases h
    · cases h

/-- ENC.MATCH's effect in one go. -/
theorem emittedMatch_eq {pos lenf : Nat} {s : State} (hp : pos < dictSize s.cfg)
    (hn : s.ip + matchLength s.cfg lenf ≤ s.inp.length) (hw : reuse s.cfg = true → s.w < dictSize s.cfg) :
    emittedMatch pos lenf s = { s with
      bswBits := s.bswBits ++ fieldBits 1 0 ++ fieldBits s.cfg.p pos ++ fieldBits s.cfg.l lenf
      q := wrapAt s.cfg pos (matchLength s.cfg lenf)
      ip := s.ip + matchLength s.cfg lenf
      w := if reuse s.cfg then wrapAt s.cfg s.w (matchLength s.cfg lenf) else s.w
      dict := emittedStores s.cfg pos s.w ((s.inp.drop s.ip).take (matchLength s.cfg lenf)) s.dict } := by
  unfold emittedMatch emitMatch
  rw [emitByte_iterate _ _ (by simpa using hn) (by simpa using hp) (by simpa using hw)]
  rfl

/-- What every token keeps, and that it keeps the working registers in their ranges and the dictionary in its form and
range. -/
theorem token_next {i : Instr} {s t : State} (hi : (∃ b, i = .lit b) ∨ (∃ p f, i = .matchRef p f))
    (h : exec i s = .next t) :
    (t.cfg = s.cfg ∧ t.cfgValid = s.cfgValid ∧ t.status = s.status ∧ t.inp = s.inp ∧ t.par = s.par ∧ t.ret = s.ret ∧
      t.schedule = s.schedule ∧ t.bsrPos = s.bsrPos) ∧
    outputFits t = true ∧
    (s.dict.wf = true → t.dict.wf = true) ∧
    (s.dict.below (dictSize s.cfg) = true → t.dict.below (dictSize s.cfg) = true) ∧
    (s.w < dictSize s.cfg → t.w < dictSize s.cfg) ∧
    (s.ip ≤ s.inp.length → t.ip ≤ s.inp.length) ∧
    (∃ more, t.out = s.out ++ more) ∧ (∃ more, t.bswBits = s.bswBits ++ more) := by
  rcases hi with ⟨b, rfl⟩ | ⟨p, f, rfl⟩
  · obtain ⟨hw, hf, ⟨-, rfl⟩ | ⟨-, hb, rfl⟩⟩ := execLit_next h
    · exact ⟨by simp, hf, fun hm => Memory.write_wf hm _ _, fun hm => Memory.write_below hm hw _,
        fun _ => cursorNext_lt _ _, fun hip => hip, ⟨_, rfl⟩, ⟨[], by simp⟩⟩
    · have hlt : s.ip < s.inp.length := by
        by_contra hc
        rw [List.getElem?_eq_none (by omega)] at hb
        cases hb
      exact ⟨by simp, hf, fun hm => Memory.write_wf hm _ _, fun hm => Memory.write_below hm hw _,
        fun _ => cursorNext_lt _ _, fun _ => hlt, ⟨[], by simp⟩, ⟨_, List.append_assoc _ _ _⟩⟩
  · obtain ⟨hp, -, hw, hf, ⟨-, rfl⟩ | ⟨-, hn, rfl⟩⟩ := execMatchRef_next h
    · refine ⟨by simp, hf, ?_⟩
      rw [copyMatch_eq _ _ _ hp hw]
      cases hr : reuse s.cfg
      · exact ⟨fun hm => hm, fun hm => hm, fun hm => hm, fun hm => hm, ⟨_, rfl⟩, ⟨[], by simp⟩⟩
      · exact ⟨fun hm => storedFrom_wf hm, fun hm => storedFrom_below (hw hr) hm, fun _ => wrapAt_lt _ _ _,
          fun hm => hm, ⟨_, rfl⟩, ⟨[], by simp⟩⟩
    · refine ⟨by simp, hf, ?_⟩
      rw [emittedMatch_eq hp hn hw]
      refine ⟨fun hm => emittedStores_wf hm, fun hm => emittedStores_below hp hw hm, fun hlt => ?_, fun _ => hn,
        ⟨[], by simp⟩, ⟨_, by rw [List.append_assoc, List.append_assoc]⟩⟩
      cases hr : reuse s.cfg
      · exact hlt
      · exact wrapAt_lt _ _ _

/-! ### START and the other transactions -/

theorem legal_iff {par : Params} {c : Cfg} : legal par c = true ↔
    (1 ≤ c.p ∧ (∀ k, par.pMax = some k → c.p ≤ k)) ∧ (1 ≤ c.l ∧ (∀ k, par.lMax = some k → c.l ≤ k)) ∧
    (1 ≤ c.m ∧ c.m ≤ 2 ^ c.l - 1) ∧ c.i < 2 ^ c.p ∧ (c.r = 0#1 ∨ c.r = 1#1) := by
  simp [legal, withinBound_iff, and_assoc]

/-- What a legal configuration gives an operation. -/
theorem legal_ranges {par : Params} {c : Cfg} (h : legal par c = true) :
    1 ≤ c.p ∧ 1 ≤ c.l ∧ 1 ≤ c.m ∧ c.m ≤ 2 ^ c.l - 1 ∧ c.i < dictSize c ∧ (c.r = 0#1 ∨ c.r = 1#1) := by
  obtain ⟨⟨h1, -⟩, ⟨h2, -⟩, ⟨h3, h4⟩, h5, h6⟩ := legal_iff.mp h
  exact ⟨h1, h2, h3, h4, h5, h6⟩

theorem start_next {op : Op} {buf : List Byte} {s t : State} (h : start op buf s = .next t) :
    s.status.state ≠ .busy ∧ s.cfgValid = true ∧ legal s.par s.cfg = true ∧
      withinBound s.par.inMax buf.length = true ∧ t = startOperation op buf s := by
  unfold start startRefusal at h
  split at h
  · cases h
  · rename_i hn
    split_ifs at hn with h1 h2 h3 h4
    cases h
    exact ⟨h1, by simpa using h2, by simpa using h3, by simpa using h4, rfl⟩

theorem start_goesAhead {op : Op} {buf : List Byte} {s : State} (h1 : s.status.state ≠ .busy)
    (h2 : s.cfgValid = true) (h3 : legal s.par s.cfg = true) (h4 : withinBound s.par.inMax buf.length = true) :
    start op buf s = .next (startOperation op buf s) := by
  simp [start, startRefusal, h1, h2, h3, h4]

theorem start_ne_fault {op : Op} {buf : List Byte} {s : State} (f : Fault) : start op buf s ≠ .fault f := by
  unfold start; split <;> simp

theorem start_refused {op : Op} {buf : List Byte} {s : State} {r : Refusal} (h : start op buf s = .refused r) :
    r = .startWhileBusy ∨ r = .cfgUnwritten ∨ r = .cfgInconsistent ∨ r = .inputTooLong := by
  unfold start startRefusal at h
  split at h
  · rename_i r' hr
    cases h
    split_ifs at hr <;> cases hr <;> simp
  · cases h

/-- If a transaction of the host answers next, then it is a CFG_WRITE or a START that nothing refuses, or it changes
`ret` alone. -/
theorem hostOp_next {op : HostOp} {s t : State} (h : exec op.instr s = .next t) :
    (∃ p l m ini r, op = .cfgWrite p l m ini r ∧ s.status.state ≠ .busy ∧
      t = { s with cfg := { p := p, l := l, m := m, i := ini, r := r }, cfgValid := true }) ∨
    (∃ o buf, (op = .startEncode buf ∧ o = .encode ∨ op = .startDecode buf ∧ o = .decode) ∧
      s.status.state ≠ .busy ∧ s.cfgValid = true ∧ legal s.par s.cfg = true ∧ t = startOperation o buf s) ∨
    (∃ r, t = give r s) := by
  cases op with
  | cfgWrite p l m ini r =>
    simp only [HostOp.instr, exec, execCfgWrite] at h
    split at h
    · cases h
    · cases h; exact .inl ⟨p, l, m, ini, r, rfl, ‹_›, rfl⟩
  | cfgRead =>
    simp only [HostOp.instr, exec, execCfgRead] at h
    split at h
    · cases h; exact .inr (.inr ⟨_, rfl⟩)
    · cases h
  | startEncode buf =>
    obtain ⟨h1, h2, h3, -, h5⟩ := start_next h
    exact .inr (.inl ⟨.encode, buf, .inl ⟨rfl, rfl⟩, h1, h2, h3, h5⟩)
  | startDecode buf =>
    obtain ⟨h1, h2, h3, -, h5⟩ := start_next h
    exact .inr (.inl ⟨.decode, buf, .inr ⟨rfl, rfl⟩, h1, h2, h3, h5⟩)
  | statusRead =>
    simp only [HostOp.instr, exec, execStatusRead] at h
    cases h; exact .inr (.inr ⟨_, rfl⟩)
  | outRead =>
    simp only [HostOp.instr, exec, execOutRead] at h
    split at h
    · cases h; exact .inr (.inr ⟨_, rfl⟩)
    · cases h

/-- No transaction faults. -/
theorem hostOp_ne_fault (op : HostOp) (s : State) (f : Fault) : exec op.instr s ≠ .fault f := by
  cases op <;> simp only [HostOp.instr, exec, execCfgWrite, execCfgRead, execStatusRead, execOutRead]
  · split <;> simp
  · split <;> simp
  · exact start_ne_fault f
  · exact start_ne_fault f
  · simp
  · split <;> simp

/-- Why a transaction can be refused (43_interface.md R182). -/
theorem hostOp_refused {op : HostOp} {s : State} {r : Refusal} (h : exec op.instr s = .refused r) :
    r = .cfgWriteWhileBusy ∨ r = .startWhileBusy ∨ r = .cfgUnwritten ∨ r = .cfgInconsistent ∨ r = .inputTooLong ∨
      r = .outputNotReady := by
  cases op <;> simp only [HostOp.instr, exec, execCfgWrite, execCfgRead, execStatusRead, execOutRead] at h
  · split at h <;> cases h; simp
  · split at h <;> cases h; simp
  · have := start_refused h; tauto
  · have := start_refused h; tauto
  · cases h
  · split at h <;> cases h; simp

end Sys2Proof.Machine
end

