-- ==== Sys2Proof/Laws/PerInstr.lean ====
section
/-!
SUPPORT. The statement made once per instruction: `encode` gives exactly as many bits as `encodedLength` says, none where
the spec gives no encoding (30_encoding.md R71, R72; 40_bitstream.md and 43_interface.md: "Encoding: none").
-/

namespace Sys2Proof.Laws.EncodedLength

/-- Under every field widths, an instruction's encoding has the length its format fixes (30_encoding.md R73). -/
def Statement (i : Instr) : Prop :=
  ∀ P L : Nat, (encode P L i).map List.length = encodedLength P L i

theorem lit (b : Byte) : Statement (.lit b) := fun _ _ => rfl

theorem matchRef (pos lenf : Nat) : Statement (.matchRef pos lenf) := fun P L => by
  simp [encode, encodedLength, Nat.add_assoc]

theorem bswWrite (v n : Nat) : Statement (.bswWrite v n) := fun _ _ => rfl

theorem bswBytes : Statement .bswBytes := fun _ _ => rfl

theorem bsrRead (n : Nat) : Statement (.bsrRead n) := fun _ _ => rfl

theorem bsrEof : Statement .bsrEof := fun _ _ => rfl

theorem cfgWrite (p l m ini : Nat) (r : BitVec 1) : Statement (.cfgWrite p l m ini r) := fun _ _ => rfl

theorem cfgRead : Statement .cfgRead := fun _ _ => rfl

theorem startEncode (inp : List Byte) : Statement (.startEncode inp) := fun _ _ => rfl

theorem startDecode (inp : List Byte) : Statement (.startDecode inp) := fun _ _ => rfl

theorem statusRead : Statement .statusRead := fun _ _ => rfl

theorem outRead : Statement .outRead := fun _ _ => rfl

end Sys2Proof.Laws.EncodedLength
end

