-- ==== Sys2Proof/Laws/Search.lean ====
section
/-! SUPPORT. What the encoder's search finds (41_encoder.md R122 to R126). -/

namespace Sys2Proof.Machine

theorem needle_length {s : State} {len : Nat} (h : len ≤ s.inp.length - s.ip) : (needle s len).length = len := by
  simp [needle]; omega

theorem needle_getElem? {s : State} {len k : Nat} (h : k < len) : (needle s len)[k]? = s.inp[s.ip + k]? := by
  simp [needle, h]

/-- The comparison FIND makes, cell by cell. -/
theorem flatRegion_eq_needle {s : State} {p len : Nat} (h : len ≤ s.inp.length - s.ip) :
    flatRegion s.dict.read p len = needle s len ↔ ∀ k, k < len → some (s.dict.read (p + k)) = s.inp[s.ip + k]? := by
  constructor
  · intro e k hk
    rw [← needle_getElem? hk, ← e]
    simp [flatRegion, hk]
  · intro e
    apply List.ext_getElem?
    intro k
    by_cases hk : k < len
    · rw [needle_getElem? hk, ← e k hk]
      simp [flatRegion, hk]
    · rw [List.getElem?_eq_none (by simp [flatRegion]; omega),
        List.getElem?_eq_none (by rw [needle_length h]; omega)]

/-- FIND returns the lowest-offset occurrence (41_encoder.md R123). -/
theorem findNeedle_eq_some {s : State} {p len : Nat} (h : len ≤ s.inp.length - s.ip) :
    findNeedle s len = some p ↔ FirstOccurs s p len := by
  unfold findNeedle
  split
  · rename_i hN
    constructor
    · intro e; cases e
    · intro e; have := e.1.1; omega
  · rename_i hN
    rw [List.find?_range_eq_some]
    simp only [decide_eq_true_eq, flatRegion_eq_needle h, List.mem_range, Bool.not_eq_true', decide_eq_false_iff_not]
    constructor
    · rintro ⟨h1, h2, h3⟩
      exact ⟨⟨by omega, h1⟩, fun p' hp' hc => h3 p' hp' hc.2⟩
    · rintro ⟨⟨h1, h2⟩, h3⟩
      exact ⟨h2, by omega, fun p' hp' hc => h3 p' hp' ⟨by omega, hc⟩⟩

theorem findNeedle_eq_none {s : State} {len : Nat} (h : len ≤ s.inp.length - s.ip) :
    findNeedle s len = none ↔ ∀ p, ¬ FirstOccurs s p len := by
  constructor
  · intro e p hp
    rw [(findNeedle_eq_some h).mpr hp] at e
    cases e
  · intro e
    cases hf : findNeedle s len with
    | none => rfl
    | some p => exact absurd ((findNeedle_eq_some h).mp hf) (e p)

theorem firstOccurs_unique {s : State} {p p' len : Nat} (h : FirstOccurs s p len) (h' : FirstOccurs s p' len) :
    p = p' := by
  rcases Nat.lt_trichotomy p p' with hlt | heq | hlt
  · exact absurd h.1 (h'.2 p hlt)
  · exact heq
  · exact absurd h'.1 (h.2 p' hlt)

/-- ACCEPT, spelled out (41_encoder.md R124). -/
theorem acceptMatch_iff {s : State} {p len : Nat} : acceptMatch s p len = true ↔ Accepted s p len := by
  unfold acceptMatch
  cases hr : reuse s.cfg with
  | false =>
    have : s.cfg.r ≠ 1#1 := fun e => by rw [reuse_iff.mpr e] at hr; cases hr
    simp [Accepted, this]
  | true =>
    have : s.cfg.r = 1#1 := reuse_iff.mp hr
    cases he : s.par.reuseEnd <;> simp [Accepted, this, endPosition, he, dictSize]

/-- One candidate length is taken with its lowest-offset occurrence, if that is accepted (41_encoder.md R125). -/
theorem tryLength_eq_some {s : State} {p len len' : Nat} (h : len ≤ s.inp.length - s.ip) :
    tryLength s len = some (p, len') ↔ len' = len ∧ FirstOccurs s p len ∧ Accepted s p len := by
  unfold tryLength
  cases hf : findNeedle s len with
  | none =>
    have := (findNeedle_eq_none h).mp hf p
    simp [this]
  | some p0 =>
    have h0 := (findNeedle_eq_some h).mp hf
    show (if acceptMatch s p0 len then some (p0, len) else none) = some (p, len') ↔ _
    by_cases ha : acceptMatch s p0 len = true
    · rw [if_pos ha, Option.some.injEq, Prod.mk.injEq]
      constructor
      · rintro ⟨rfl, rfl⟩; exact ⟨rfl, h0, acceptMatch_iff.mp ha⟩
      · rintro ⟨rfl, h1, -⟩; exact ⟨firstOccurs_unique h0 h1, rfl⟩
    · rw [if_neg ha]
      constructor
      · intro e; cases e
      · rintro ⟨rfl, h1, h2⟩
        rw [firstOccurs_unique h0 h1] at ha
        exact absurd (acceptMatch_iff.mpr h2) ha

theorem tryLength_eq_none {s : State} {len : Nat} (h : len ≤ s.inp.length - s.ip) :
    tryLength s len = none ↔ ∀ p, FirstOccurs s p len → ¬ Accepted s p len := by
  constructor
  · intro e p h1 h2
    rw [(tryLength_eq_some h).mpr ⟨rfl, h1, h2⟩] at e
    cases e
  · intro e
    cases ht : tryLength s len with
    | none => rfl
    | some r =>
      obtain ⟨p, len'⟩ := r
      obtain ⟨-, h1, h2⟩ := (tryLength_eq_some h).mp ht
      exact absurd h2 (e p h1)

/-- The loop takes the first candidate length, from the longest down, that yields something. -/
theorem searchDown_eq_some {s : State} {count : Nat} {r : Nat × Nat} : searchDown s count = some r ↔
    ∃ j, j < count ∧ tryLength s (s.cfg.m + j) = some r ∧
      ∀ j', j < j' → j' < count → tryLength s (s.cfg.m + j') = none := by
  induction count with
  | zero => simp [searchDown]
  | succ count ih =>
    unfold searchDown
    cases ht : tryLength s (s.cfg.m + count) with
    | some r0 =>
      simp only [Option.some.injEq]
      constructor
      · rintro rfl; exact ⟨count, by omega, ht, fun j' h1 h2 => by omega⟩
      · rintro ⟨j, hj, he, hn⟩
        by_cases e : j = count
        · subst e; rw [ht] at he; exact Option.some.inj he
        · have := hn count (by omega) (by omega)
          rw [ht] at this; cases this
    | none =>
      simp only [ih]
      constructor
      · rintro ⟨j, hj, he, hn⟩
        refine ⟨j, by omega, he, fun j' h1 h2 => ?_⟩
        by_cases e : j' = count
        · subst e; exact ht
        · exact hn j' h1 (by omega)
      · rintro ⟨j, hj, he, hn⟩
        by_cases e : j = count
        · subst e; rw [ht] at he; cases he
        · exact ⟨j, by omega, he, fun j' h1 h2 => hn j' h1 (by omega)⟩

theorem searchDown_eq_none {s : State} {count : Nat} : searchDown s count = none ↔
    ∀ j, j < count → tryLength s (s.cfg.m + j) = none := by
  induction count with
  | zero => simp [searchDown]
  | succ count ih =>
    unfold searchDown
    cases ht : tryLength s (s.cfg.m + count) with
    | some r0 =>
      simp only [reduceCtorEq, false_iff]
      intro h
      rw [h count (by omega)] at ht
      cases ht
    | none =>
      simp only [ih]
      constructor
      · intro h j hj
        by_cases e : j = count
        · subst e; exact ht
        · exact h j (by omega)
      · exact fun h j hj => h j (by omega)

/-- What the search can return: a candidate length in range with its accepted lowest occurrence. -/
theorem search_some {s : State} {p len : Nat} (h : search s = some (p, len)) :
    s.cfg.m ≤ len ∧ len ≤ 2 ^ (s.cfg.l - 1) ∧ len ≤ s.inp.length - s.ip ∧ FirstOccurs s p len ∧ Accepted s p len := by
  obtain ⟨j, hj, ht, -⟩ := searchDown_eq_some.mp h
  have hle : s.cfg.m + j ≤ longestCandidate s := by omega
  have h1 : s.cfg.m + j ≤ s.inp.length - s.ip := hle.trans (Nat.min_le_right _ _)
  have h2 : s.cfg.m + j ≤ 2 ^ (s.cfg.l - 1) := hle.trans (Nat.min_le_left _ _)
  obtain ⟨rfl, h3, h4⟩ := (tryLength_eq_some h1).mp ht
  exact ⟨by omega, h2, h1, h3, h4⟩

/-- The region of a match the search found holds the needle. -/
theorem search_holdsAt {s : State} {p len : Nat} (h : search s = some (p, len)) :
    HoldsAt s.cfg s.dict p ((s.inp.drop s.ip).take len) := by
  obtain ⟨-, -, hn, ⟨⟨hN, hk⟩, -⟩, -⟩ := search_some h
  have hl : ((s.inp.drop s.ip).take len).length = len := by simp; omega
  refine ⟨by rw [hl]; exact hN, fun k hk' => ?_⟩
  rw [hl] at hk'
  rw [hk k hk']
  simp [hk']

/-- Under `R = 1` with INCLUSIVE the region of an accepted match ends below the write cursor (41_encoder.md R135). -/
theorem accepted_inclusive {s : State} {p len : Nat} (hr : s.cfg.r = 1#1) (he : s.par.reuseEnd = .inclusive)
    (hlen : 1 ≤ len) (hN : p + len ≤ dictSize s.cfg) : Accepted s p len ↔ p + len ≤ s.w := by
  have hmod : (p + len - 1) % 2 ^ s.cfg.p = p + len - 1 := Nat.mod_eq_of_lt (by unfold dictSize at hN; omega)
  simp only [Accepted, hr, he, hmod, forall_const, reduceCtorEq, false_implies, and_true]
  omega

end Sys2Proof.Machine
end

