-- ==== Sys2Proof/Laws/Step.lean ====
section
/-! SUPPORT. What one step can do: every case of the host's moves and of the two token steps. -/

namespace Sys2Proof.Machine

/-! ### `afterPause` changes the schedule alone -/

@[simp] theorem afterPause_cfg (s : State) : s.afterPause.cfg = s.cfg := rfl
@[simp] theorem afterPause_cfgValid (s : State) : s.afterPause.cfgValid = s.cfgValid := rfl
@[simp] theorem afterPause_status (s : State) : s.afterPause.status = s.status := rfl
@[simp] theorem afterPause_w (s : State) : s.afterPause.w = s.w := rfl
@[simp] theorem afterPause_ip (s : State) : s.afterPause.ip = s.ip := rfl
@[simp] theorem afterPause_q (s : State) : s.afterPause.q = s.q := rfl
@[simp] theorem afterPause_bswBits (s : State) : s.afterPause.bswBits = s.bswBits := rfl
@[simp] theorem afterPause_bsrPos (s : State) : s.afterPause.bsrPos = s.bsrPos := rfl
@[simp] theorem afterPause_out (s : State) : s.afterPause.out = s.out := rfl
@[simp] theorem afterPause_dict (s : State) : s.afterPause.dict = s.dict := rfl
@[simp] theorem afterPause_inp (s : State) : s.afterPause.inp = s.inp := rfl
@[simp] theorem afterPause_par (s : State) : s.afterPause.par = s.par := rfl
@[simp] theorem afterPause_ret (s : State) : s.afterPause.ret = s.ret := rfl
@[simp] theorem afterPause_schedule (s : State) : s.afterPause.schedule = s.schedule.tail := rfl

theorem afterPause_of_nil {s : State} (h : s.schedule = []) : s.afterPause = s := by
  cases s; simp_all [State.afterPause]

theorem search_afterPause (s : State) : search s.afterPause = search s := by
  have key : ∀ n, searchDown s.afterPause n = searchDown s n := by
    intro n
    induction n with
    | zero => rfl
    | succ n ih => unfold searchDown; rw [ih]; rfl
  exact key _

/-! ### The host's moves -/

theorem step_transact {s : State} {op : HostOp} {rest : List HostMove} (h : s.schedule = .transact op :: rest) :
    step s = exec op.instr { s with schedule := rest } := by
  simp [step, scheduledStep, h]

theorem step_quiet {s : State} (h : s.HostQuiet) : step s = blockStep s.afterPause := by
  unfold step scheduledStep
  split
  · rename_i e; rw [afterPause_of_nil e]
  · rename_i rest e; simp [State.afterPause, e]
  · rename_i op rest e; exact absurd e (h op rest)

/-- At each step either a transaction is next or the host is quiet. -/
theorem hostQuiet_or_transact (s : State) :
    s.HostQuiet ∨ ∃ op rest, s.schedule = .transact op :: rest := by
  by_cases h : s.HostQuiet
  · exact .inl h
  · right
    by_contra hc
    exact h fun op rest e => hc ⟨op, rest, e⟩

theorem hostQuiet_of_nil {s : State} (h : s.schedule = []) : s.HostQuiet := by
  intro op rest; rw [h]; simp

/-! ### The block's own step -/

theorem blockStep_notBusy {s : State} (h : s.status.state ≠ .busy) : blockStep s = .next s := by
  unfold blockStep
  split <;> simp_all

theorem blockStep_encode {s : State} (h : s.Running .encode) : blockStep s = encStep s := by
  simp [blockStep, h.1, h.2]

theorem blockStep_decode {s : State} (h : s.Running .decode) : blockStep s = decStep s := by
  simp [blockStep, h.1, h.2]

/-- The token ENC.STEP emits: the match the search found, or the literal at `IP`. -/
theorem nextToken_cases {s : State} {i : Instr} (h : nextToken s = some i) :
    (∃ p len, search s = some (p, len) ∧ i = .matchRef p (len - s.cfg.m)) ∨
    (∃ b, search s = none ∧ s.inp[s.ip]? = some b ∧ i = .lit b) := by
  unfold nextToken at h
  split at h
  · rename_i p len hs
    cases h; exact .inl ⟨p, len, hs, rfl⟩
  · rename_i hs
    split at h
    · rename_i b hb
      cases h; exact .inr ⟨b, hs, hb, rfl⟩
    · cases h

theorem nextToken_of_lt {s : State} (h : s.ip < s.inp.length) : ∃ i, nextToken s = some i := by
  unfold nextToken
  split
  · exact ⟨_, rfl⟩
  · rw [List.getElem?_eq_getElem h]; exact ⟨_, rfl⟩

theorem encStep_end {s : State} (h : s.ip = s.inp.length) : encStep s = .next (stop .inputEnd s) := by
  simp [encStep, h]

theorem encStep_token {s : State} {i : Instr} (h : s.ip ≠ s.inp.length) (hi : nextToken s = some i) :
    encStep s = exec i s := by
  simp [encStep, h, hi]

/-- The token DEC.STEP reads is a LIT of 9 bits or a well-formed MATCH of `1 + P + L` bits, all inside the stream. -/
theorem fetchToken_ok {s : State} {i : Instr} {pos' : Nat} (h : fetchToken s = .ok (i, pos')) :
    pos' ≤ 8 * s.inp.length ∧
      ((∃ b, i = .lit b ∧ pos' = s.bsrPos + 9) ∨
       (∃ p f, i = .matchRef p f ∧ p < 2 ^ s.cfg.p ∧ f < 2 ^ s.cfg.l ∧ pos' = s.bsrPos + 1 + s.cfg.p + s.cfg.l)) := by
  unfold fetchToken decode at h
  have hlen : (streamBits s.inp).length = 8 * s.inp.length := Laws.streamBits_length _
  rcases Laws.decodeBits_cases s.cfg.p s.cfg.l (streamBits s.inp) s.bsrPos with
    ⟨-, e⟩ | ⟨-, -, e⟩ | ⟨-, hle, e⟩ | ⟨-, -, e⟩ | ⟨-, -, -, e⟩ | ⟨-, hle, e⟩ <;> rw [e] at h <;> cases h
  · exact ⟨by omega, .inl ⟨_, rfl, rfl⟩⟩
  · have h1 := Laws.bitsValue_lt (((streamBits s.inp).drop (s.bsrPos + 1)).take s.cfg.p)
    have h2 := Laws.bitsValue_lt (((streamBits s.inp).drop (s.bsrPos + 1 + s.cfg.p)).take s.cfg.l)
    rw [Laws.drop_take_length _ _ _ (by omega)] at h1 h2
    exact ⟨by omega, .inr ⟨_, _, rfl, h1, h2, rfl⟩⟩

theorem decStep_token {s : State} {i : Instr} {pos' : Nat} (h : fetchToken s = .ok (i, pos')) :
    decStep s = exec i { s with bsrPos := pos' } := by
  simp [decStep, h]

theorem decStep_end {s : State} {r : Reject} (h : fetchToken s = .error r) :
    decStep s = .next (stopAtEnd r s) := by
  simp [decStep, h]

/-- What a running ENCODE's step can do. -/
theorem encStep_next {s t : State} (h : encStep s = .next t) :
    (s.ip = s.inp.length ∧ t = stop .inputEnd s) ∨
    (s.ip ≠ s.inp.length ∧ ∃ i, nextToken s = some i ∧ exec i s = .next t) := by
  by_cases he : s.ip = s.inp.length
  · rw [encStep_end he] at h; cases h; exact .inl ⟨he, rfl⟩
  · refine .inr ⟨he, ?_⟩
    cases hn : nextToken s with
    | none => simp [encStep, he, hn] at h
    | some i => exact ⟨i, rfl, by rwa [encStep_token he hn] at h⟩

/-- What a running DECODE's step can do. -/
theorem decStep_next {s t : State} (h : decStep s = .next t) :
    (∃ r, fetchToken s = .error r ∧ t = stopAtEnd r s) ∨
    (∃ i pos', fetchToken s = .ok (i, pos') ∧ exec i { s with bsrPos := pos' } = .next t) := by
  cases hf : fetchToken s with
  | error r => rw [decStep_end hf] at h; cases h; exact .inl ⟨r, rfl, rfl⟩
  | ok x => obtain ⟨i, pos'⟩ := x; exact .inr ⟨i, pos', rfl, by rwa [decStep_token hf] at h⟩

/-- What one step can do, all cases: a transaction of the host; nothing, while no operation runs; or a token step. -/
theorem step_next {s t : State} (h : step s = .next t) :
    (∃ op rest, s.schedule = .transact op :: rest ∧ exec op.instr { s with schedule := rest } = .next t) ∨
    (s.HostQuiet ∧ s.status.state ≠ .busy ∧ t = s.afterPause) ∨
    (s.HostQuiet ∧ s.Running .encode ∧ encStep s.afterPause = .next t) ∨
    (s.HostQuiet ∧ s.Running .decode ∧ decStep s.afterPause = .next t) := by
  rcases hostQuiet_or_transact s with hq | ⟨op, rest, e⟩
  · right
    rw [step_quiet hq] at h
    by_cases hb : s.status.state = .busy
    · right
      cases ho : s.status.op with
      | none => simp [blockStep, hb, ho] at h
      | encode => exact .inl ⟨hq, ⟨hb, ho⟩, by rwa [blockStep_encode ⟨by simpa using hb, by simpa using ho⟩] at h⟩
      | decode => exact .inr ⟨hq, ⟨hb, ho⟩, by rwa [blockStep_decode ⟨by simpa using hb, by simpa using ho⟩] at h⟩
    · rw [blockStep_notBusy (by simpa using hb)] at h
      cases h; exact .inl ⟨hq, hb, rfl⟩
  · exact .inl ⟨op, rest, e, by rwa [step_transact e] at h⟩

/-- The token DEC.STEP reads is a token. -/
theorem isToken_of_fetch {s : State} {i : Instr} {pos' : Nat} (h : fetchToken s = .ok (i, pos')) :
    (∃ b, i = .lit b) ∨ (∃ p f, i = .matchRef p f) := by
  obtain ⟨-, ⟨b, rfl, -⟩ | ⟨p, f, rfl, -⟩⟩ := fetchToken_ok h
  · exact .inl ⟨b, rfl⟩
  · exact .inr ⟨p, f, rfl⟩

/-- The token ENC.STEP emits is a token. -/
theorem isToken_of_next {s : State} {i : Instr} (h : nextToken s = some i) :
    (∃ b, i = .lit b) ∨ (∃ p f, i = .matchRef p f) := by
  rcases nextToken_cases h with ⟨p, len, -, rfl⟩ | ⟨b, -, -, rfl⟩
  · exact .inr ⟨_, _, rfl⟩
  · exact .inl ⟨_, rfl⟩

/-- The first of several steps. -/
theorem runSteps_succ {k : Nat} {s t : State} (h : step s = .next t) : runSteps (k + 1) s = runSteps k t := by
  show Host.Core.run Sys2Proof.core (k + 1) s = _
  simp only [Host.Core.run]
  have h' : Sys2Proof.core.step s = .next t := h
  rw [h']

end Sys2Proof.Machine
end

