-- ==== Sys2Proof/Tests/Slice0.lean ====
section
/-!
SUPPORT. The model's own tests: what `wellFormed` refuses, words written out from 30_encoding.md and 95_test_vectors.md,
single steps with results taken from 95_test_vectors.md, and, for every statement with hypotheses, a state and operands
that meet them all.
-/

namespace Sys2Proof.Tests

open Sys2Proof.Machine

/-! ### Small states -/

/-- Configurations A (`R = 0`) and B (`R = 1`) of 95_test_vectors.md, and their variants with another `I`. -/
def cfgOf (ini : Nat) (r : BitVec 1) : Cfg := { p := 4, l := 3, m := 2, i := ini, r := r }

/-- After a CFG_WRITE of `c`. -/
def configured (c : Cfg) : State := { State.reset with cfg := c, cfgValid := true }

/-- Right after START_ENCODE under `c`. -/
def encoding (c : Cfg) (buf : List Byte) : State := startOperation .encode buf (configured c)

/-- Right after START_DECODE under `c`. -/
def decoding (c : Cfg) (buf : List Byte) : State := startOperation .decode buf (configured c)

/-- After the three literals of "ABCABC" (vectors ENC3 and ENC4, step 4 is next). -/
def encodedAbc (r : BitVec 1) : State :=
  { encoding (cfgOf 0 r) [0x41#8, 0x42#8, 0x43#8, 0x41#8, 0x42#8, 0x43#8] with
    w := 3, ip := 3, dict := [(0, 0x41#8), (1, 0x42#8), (2, 0x43#8)],
    bswBits := encodeAll 4 3 [.lit 0x41#8, .lit 0x42#8, .lit 0x43#8] }

/-- After the three literals of the stream `A0 D0 A8 60 20` (program PROG1, step 4 is next). -/
def decodedAbc (r : BitVec 1) : State :=
  { decoding (cfgOf 0 r) [0xA0#8, 0xD0#8, 0xA8#8, 0x60#8, 0x20#8] with
    w := 3, bsrPos := 27, dict := [(0, 0x41#8), (1, 0x42#8), (2, 0x43#8)], out := [0x41#8, 0x42#8, 0x43#8] }

/-- After an ENCODE of "AB" under configuration D, `(2, 2, 1, 0, 0)` (program PROG4). -/
def encodedAb : State :=
  { encoding { p := 2, l := 2, m := 1, i := 0, r := 0 } [0x41#8, 0x42#8] with
    w := 2, ip := 2, dict := [(0, 0x41#8), (1, 0x42#8)], bswBits := encodeAll 2 2 [.lit 0x41#8, .lit 0x42#8],
    status := { state := .done, op := .encode, term := .inputEnd } }

/-- The next state, if there is one. -/
def nextOf : Result → Option State
  | .next s => some s
  | .fault _ => none
  | .refused _ => none

/-- The refusal, if there is one. -/
def refusalOf : Result → Option Refusal
  | .next _ => none
  | .fault _ => none
  | .refused r => some r

/-- What a reading operation handed back. -/
def returned (o : Result) : Option Ret := (nextOf o).map State.ret

/-- `W` and the dictionary afterwards. -/
def window (o : Result) : Option (Nat × Memory) := (nextOf o).map fun s => (s.w, s.dict)

/-! ### WellFormed and the listing forms refuse what is ill formed (30_encoding.md R72, R75, R80) -/

theorem test_wellFormed_position_too_wide : wellFormed 4 3 (.matchRef 16 0) = false := by decide

theorem test_wellFormed_length_too_wide : wellFormed 4 3 (.matchRef 0 8) = false := by decide

theorem test_wellFormed_largest_fields : wellFormed 4 3 (.matchRef 15 7) = true := by decide

theorem test_listing_ill_formed : Listing.wellFormed 4 3 2 (.matchForm 0 1) = false ∧
    Listing.wellFormed 4 3 2 (.matchForm 0 10) = false ∧ Listing.wellFormed 4 3 2 (.matchForm 16 3) = false ∧
    Listing.wellFormed 4 3 2 (.padForm 8) = false := by decide

theorem test_listing_well_formed : Listing.wellFormed 4 3 2 (.matchForm 15 9) = true ∧
    Listing.wellFormed 4 3 2 (.padForm 7) = true := by decide

/-! ### Words written out from the encodings -/

/-- R71, R81: `1 01000001` is LIT 0x41. -/
theorem test_decode_lit : decodeBits 4 3 [true, false, true, false, false, false, false, false, true] 0 =
    .ok (.lit 0x41#8, 9) := rfl

/-- R72, R81: `0 0000 001` is MATCH 0, 3 (length field 1). -/
theorem test_decode_match : decodeBits 4 3 [false, false, false, false, false, false, false, true] 0 =
    .ok (.matchRef 0 1, 8) := rfl

/-- R72: `0 10 01` under widths 2 and 2: position 2, length field 1; neither field is read for the other. -/
theorem test_decode_match_fields_apart : decodeBits 2 2 [false, true, false, false, true] 0 = .ok (.matchRef 2 1, 5) :=
  rfl

/-- R81: the third token of `A0 D0 A8 60 20` straddles bytes. -/
theorem test_decode_straddling : decode 4 3 [0xA0#8, 0xD0#8, 0xA8#8, 0x60#8, 0x20#8] 18 = .ok (.lit 0x43#8, 27) := rfl

/-- R81: the listing's bits pack to `A0 D0 A8 60 20`. -/
theorem test_listing_bytes : packBytes ([Listing.litForm 0x41#8, .litForm 0x42#8, .litForm 0x43#8, .matchForm 0 3,
    .padForm 5, .endForm].flatMap (Listing.bits 4 3 2)) = [0xA0#8, 0xD0#8, 0xA8#8, 0x60#8, 0x20#8] := by decide

/-- The opcode table's own numbering and example widths (log entries 9 and 10): MATCH 4078, length field 2, is stream
bits `0 111111101110 0010` (PROG3). -/
theorem test_table_match : decodeTableWord 17 0b01000111011111110 = some (.matchRef 4078 2) := by decide

/-- A row without bits has no encoding to decode. -/
theorem test_table_no_bits : decodeTableWord 0 1 = none := by decide

/-! ### The constants of 00_scope.md R7 and the codes of 10_state.md R29 and R31 -/

/-- Configuration C of 95_test_vectors.md: N 32, CAP 8, FMAX 15, DMAX 17. -/
theorem test_derived_constants : let c : Cfg := { p := 5, l := 4, m := 2, i := 0, r := 0 }
    (dictSize c, searchCap c, fieldMax c, longestMatch c) = (32, 8, 15, 17) := by decide

theorem test_status_codes :
    ([RunState.idle, .busy, .done].map runStateCode, [Op.none, .encode, .decode].map opCode,
      [Term.none, .inputEnd, .eosFlag, .eosLiteral, .eosPosition, .eosLength].map termCode) =
    ([0, 1, 2], [0, 1, 2], [0, 1, 2, 3, 4, 5]) := by decide

theorem test_reset_dictionary_canonical : State.reset.dict.wf = true := by decide

/-- Writing what an unlisted cell reads as removes the entry; another value keeps the addresses rising. -/
theorem test_memory_canonical : Memory.write [(3, 0x41#8)] 3 0x00#8 = [] ∧
    Memory.write [(3, 0x41#8)] 1 0x42#8 = [(1, 0x42#8), (3, 0x41#8)] := by decide

/-! ### The bit-stream primitives (vectors BS2, BS3, BS6, BS7, BS9 to BS11) -/

theorem test_bswWrite_truncates : (nextOf (exec (.bswWrite 0x1FF 4) State.reset)).map State.bswBits =
    some [true, true, true, true] := by decide

theorem test_bswWrite_zero_width : (nextOf (exec (.bswWrite 7 0) { State.reset with bswBits := [true, false, true] })).map
    State.bswBits = some [true, false, true] := by decide

theorem test_bswBytes_pads : returned (exec .bswBytes { State.reset with bswBits := fieldBits 1 0 ++ fieldBits 12 0xABC }) =
    some (.bytes [0x55#8, 0xE0#8]) := by decide

theorem test_bswBytes_empty : returned (exec .bswBytes State.reset) = some (.bytes []) := by decide

theorem test_bsrRead_eos_consumes : (nextOf (exec (.bsrRead 6) { State.reset with inp := [0xFF#8], bsrPos := 3 })).map
    (fun s => (s.ret, s.bsrPos)) = some (.field none, 8) := by decide

theorem test_bsrRead_zero_width : (nextOf (exec (.bsrRead 0) { State.reset with inp := [0xA5#8] })).map
    (fun s => (s.ret, s.bsrPos)) = some (.field (some 0), 0) := by decide

theorem test_bsrEof_empty : returned (exec .bsrEof State.reset) = some (.flag true) := by decide

theorem test_bsrEof_bits_left : returned (exec .bsrEof { State.reset with inp := [0xA5#8], bsrPos := 7 }) =
    some (.flag false) := by decide

/-! ### The host's transactions (vectors HOST1 to HOST14) -/

theorem test_cfgWrite_sets : (nextOf (exec (.cfgWrite 4 3 2 0 1) State.reset)).map (fun s => (s.cfg, s.cfgValid)) =
    some (cfgOf 0 1, true) := by decide

theorem test_cfgWrite_busy : refusalOf (exec (.cfgWrite 4 3 2 0 0) (encodedAbc 0)) = some .cfgWriteWhileBusy := by
  decide

theorem test_cfgRead_unwritten : refusalOf (exec .cfgRead State.reset) = some .cfgUnwritten := by decide

theorem test_cfgRead_busy : returned (exec .cfgRead (encodedAbc 1)) = some (.cfg (cfgOf 0 1)) := by decide

theorem test_startEncode_unwritten : refusalOf (exec (.startEncode [0x41#8]) State.reset) = some .cfgUnwritten := by
  decide

theorem test_startEncode_m_too_large :
    refusalOf (exec (.startEncode [0x41#8]) (configured { cfgOf 0 0 with m := 8 })) = some .cfgInconsistent := by decide

theorem test_startDecode_i_too_large : refusalOf (exec (.startDecode [0x00#8]) (configured (cfgOf 16 0))) =
    some .cfgInconsistent := by decide

theorem test_startDecode_clears : (nextOf (exec (.startDecode [0xA0#8, 0x80#8]) { encodedAb with cfg := cfgOf 14 0 })).map
    (fun s => (s.w, s.dict, s.bswBits, s.ip)) = some (14, [], [], 0) := by decide

theorem test_statusRead_reset : returned (exec .statusRead State.reset) =
    some (.status { state := .idle, op := .none, term := .none }) := by decide

theorem test_outRead_busy : refusalOf (exec .outRead (encodedAbc 0)) = some .outputNotReady := by decide

theorem test_outRead_done : returned (exec .outRead encodedAb) = some (.bytes [0xA0#8, 0xD0#8, 0x80#8]) := by
  decide

/-! ### Token steps -/

/-- ENC6: the accepted region would not end below `W`, so `00 00 00` starts with a literal. -/
theorem test_lit_emitted : (nextOf (step (encoding (cfgOf 0 1) [0x00#8, 0x00#8, 0x00#8]))).map
    (fun s => (s.bswBits, s.ip, s.w)) =
    some ([true, false, false, false, false, false, false, false, false], 1, 1) := by decide

/-- PROG5, decoder step 2: LIT 0x59 is stored at 15 and `W` wraps to 0. -/
theorem test_lit_decoded : window (step { decoding (cfgOf 14 0) [0xAC#8, 0x56#8, 0x6B#8, 0x4E#8, 0x20#8] with
    w := 15, bsrPos := 9, dict := [(14, 0x58#8)], out := [0x58#8] }) = some (0, [(14, 0x58#8), (15, 0x59#8)]) := by
  decide

/-- ENC4, step 4: MATCH 0, 3 and its three reuse stores. -/
theorem test_match_emitted : (nextOf (step (encodedAbc 1))).map (fun s => (s.bswBits.drop 27, s.ip, s.w, s.dict)) =
    some ([false, false, false, false, false, false, false, true], 6, 6,
      [(0, 0x41#8), (1, 0x42#8), (2, 0x43#8), (3, 0x41#8), (4, 0x42#8), (5, 0x43#8)]) := by decide

/-- DEC4, step 2: MATCH 0, 5 under reuse copies the byte each iteration before it stored. -/
theorem test_match_decoded : (nextOf (step { decoding (cfgOf 0 1) [0xB0#8, 0x81#8, 0x80#8] with
    w := 1, bsrPos := 9, dict := [(0, 0x61#8)], out := [0x61#8] })).map (fun s => (s.out, s.w, s.bsrPos)) =
    some ([0x61#8, 0x61#8, 0x61#8, 0x61#8, 0x61#8, 0x61#8], 6, 17) := by decide

/-- ENC22, step 4: under R = 1 the only occurrence, at 14, ends at 15 >= W = 1 and is rejected. -/
theorem test_search_rejects : search { encoding (cfgOf 14 1) [0x58#8, 0x59#8, 0x5A#8, 0x58#8, 0x59#8, 0x5A#8] with
    w := 1, ip := 3, dict := [(0, 0x5A#8), (14, 0x58#8), (15, 0x59#8)] } = none := by decide

/-- ENC17X, step 2: EXCLUSIVE wraps the end position to 0 and accepts. -/
theorem test_search_exclusive_wraps :
    search { encoding { p := 1, l := 4, m := 2, i := 0, r := 1 } [0x02#8, 0x02#8, 0x00#8] with
      w := 1, ip := 1, dict := [(0, 0x02#8)], par := { Params.default with reuseEnd := .exclusive } } = some (0, 2) := by
  decide

/-- DEC8 and DEC10: the read that meets the end names the TERM. -/
theorem test_decode_ends : (nextOf (step (decoding (cfgOf 0 0) [0x80#8]))).map (fun s => (s.status.term, s.bsrPos)) =
      some (.eosLiteral, 8) ∧
    (nextOf (step (decoding { p := 12, l := 4, m := 2, i := 4078, r := 0 } [0x00#8]))).map
      (fun s => (s.status.term, s.bsrPos)) = some (.eosPosition, 8) := by decide

/-- HOST12: an empty input ends at the first step. -/
theorem test_encode_empty : (nextOf (step (encoding (cfgOf 0 0) []))).map State.status =
    some { state := .done, op := .encode, term := .inputEnd } := by decide

/-! ### Every statement's hypotheses can be met, each clause at a boundary of its range

`witness_X` belongs to `Obligations.X`. -/

theorem exists_next {o : Result} (h : (nextOf o).isSome = true) : ∃ t, o = .next t := by
  cases o with
  | next t => exact ⟨t, rfl⟩
  | fault f => cases h
  | refused r => cases h

theorem exists_refused {o : Result} {r : Refusal} (h : refusalOf o = some r) : o = .refused r := by
  cases o with
  | next t => cases h
  | fault f => cases h
  | refused r' => cases h; rfl

/-- The same state under an OUT_MAX of `k`. -/
def bounded (k : Nat) (s : State) : State := { s with par := { s.par with outMax := some k } }

theorem inv_encodedAbc_off : (encodedAbc 0).Inv := by constructor <;> decide

theorem inv_encodedAbc_on : (encodedAbc 1).Inv := by constructor <;> decide

theorem inv_decodedAbc_off : (decodedAbc 0).Inv := by constructor <;> decide

theorem inv_decodedAbc_on : (decodedAbc 1).Inv := by constructor <;> decide

theorem inv_encodedAb : encodedAb.Inv := by constructor <;> decide

theorem quiet_nil {s : State} (h : s.schedule = []) : s.HostQuiet := hostQuiet_of_nil h

theorem witness_EncodedTokenDecodesToItself :
    (wellFormed 4 3 (.matchRef 15 7) = true ∧
      encode 4 3 (.matchRef 15 7) = some [false, true, true, true, true, true, true, true]) ∧
    (wellFormed 4 3 (.lit 0x41#8) = true ∧
      encode 4 3 (.lit 0x41#8) = some [true, false, true, false, false, false, false, false, true]) := by decide

theorem witness_DecodedTokenReencodesToTheBitsRead : decodeBits 4 3 (streamBits [0x7F#8]) 0 = .ok (.matchRef 15 7, 8) :=
  rfl

theorem witness_FlagBitFixesFormatAndLength :
    (let s := true :: List.replicate 8 true; s[0]? = some true ∧ 0 + 9 ≤ s.length) ∧
    (let s := false :: List.replicate 7 true; s[0]? = some false ∧ 0 + (1 + 4 + 3) ≤ s.length) := by decide

theorem witness_OperandsAreTheirFields :
    decodeBits (cfgOf 0 0).p (cfgOf 0 0).l (streamBits [0xFF#8, 0x80#8]) 0 = .ok (.lit 0xFF#8, 9) ∧
    decodeBits (cfgOf 0 0).p (cfgOf 0 0).l (streamBits [0x7F#8]) 0 = .ok (.matchRef 15 7, 8) ∧
    decodeBits (cfgOf 0 0).p (cfgOf 0 0).l (streamBits [0x00#8]) 0 = .ok (.matchRef 0 0, 8) := ⟨rfl, rfl, rfl⟩

theorem witness_BitsAreMostSignificantFirst : 8 < (List.replicate 9 true).length := by decide

theorem witness_StreamSizeFollowsFromTokens : [Instr.matchRef 0 1, .lit 0x41#8].Perm
    ([0x41#8].map Instr.lit ++ [((0 : Nat), (1 : Nat))].map fun m => Instr.matchRef m.1 m.2) := by decide

theorem witness_PaddingReadsAsMatchOrEnd :
    let s := List.replicate 8 false
    (∀ k, 0 ≤ k → k < s.length → s[k]? = some false) ∧ 0 + (1 + 4 + 3) ≤ s.length ∧ s.length < 1 + (1 + 4 + 3) := by
  decide

/-- The shortest and the longest length a listing may give. -/
theorem witness_ListingFormsAreTheirTokens : Listing.wellFormed 4 3 2 (.matchForm 15 2) = true ∧
    Listing.wellFormed 4 3 2 (.matchForm 15 9) = true := by decide

theorem witness_BswWriteAppendsLowBits : 0 < [true].length ∧ 0 < 1 := by decide

theorem witness_BswBytesPacksAndPads : (nextOf (exec .bswBytes encodedAb)).map (fun t => t.ret) =
    some (.bytes [0xA0#8, 0xD0#8, 0x80#8]) ∧ 2 < [0xA0#8, 0xD0#8, 0x80#8].length := by decide

theorem witness_BsrReadReturnsFieldOrEos :
    let s := { State.reset with inp := [0xA5#8], bsrPos := 4 }
    s.bsrPos + 4 ≤ 8 * s.inp.length ∧ 8 * s.inp.length < s.bsrPos + 5 := by decide

theorem witness_BsrEofTellsWhetherAllIsRead :
    let s := { State.reset with inp := [0xA5#8], bsrPos := 8 }
    s.bsrPos = 8 * s.inp.length ∧ 7 ≠ 8 * s.inp.length := by decide

/-- BS12: two fields, 11 bits, 5 bits of padding; `w` is 5 or 6. -/
theorem witness_WrittenFieldsReadBack :
    let fs : List (Nat × Nat) := [(0, 1), (0x3FF, 10)]
    let u := { State.reset with inp := [0x7F#8, 0xE0#8] }
    State.reset.bswBits = [] ∧ u.bsrPos = 0 ∧ fs = [(0, 1)] ++ (0x3FF, 10) :: [] ∧
    (nextOf (execAll (fs.map fun f => .bswWrite f.1 f.2) State.reset)).map (fun t => packBytes t.bswBits) = some u.inp ∧
    5 ≤ (8 - (fs.map Prod.snd).sum % 8) % 8 ∧ ¬ 6 ≤ (8 - (fs.map Prod.snd).sum % 8) % 8 := by decide

theorem witness_CfgWriteSetsAllFiveFields :
    encodedAb.status.state ≠ .busy ∧ (encodedAbc 0).status.state = .busy := by decide

theorem witness_CfgReadReturnsConfiguration : encodedAb.cfgValid = true ∧ State.reset.cfgValid = false := by decide

/-- The input is exactly as long as IN_MAX allows. -/
theorem witness_StartInitialisesTheOperation :
    let s := { encodedAb with par := { Params.default with inMax := some 1 } }
    s.status.state ≠ .busy ∧ s.cfgValid = true ∧ legal s.par s.cfg = true ∧
      (∀ k, s.par.inMax = some k → [0x41#8].length ≤ k) := by
  refine ⟨by decide, by decide, by decide, fun k h => ?_⟩
  cases h; decide

/-- HOST8, HOST3, HOST4, and an input one byte longer than IN_MAX. -/
theorem witness_StartRefusesInOrder :
    (encodedAbc 0).status.state = .busy ∧
    (State.reset.status.state ≠ .busy ∧ State.reset.cfgValid = false) ∧
    (let s := configured { cfgOf 0 0 with m := 8 };
      s.status.state ≠ .busy ∧ s.cfgValid = true ∧ legal s.par s.cfg = false) ∧
    (let s := { encodedAb with par := { Params.default with inMax := some 0 } };
      s.status.state ≠ .busy ∧ s.cfgValid = true ∧ legal s.par s.cfg = true ∧
        ∃ k, s.par.inMax = some k ∧ k < [0x41#8].length) := by
  refine ⟨by decide, by decide, by decide, by decide, by decide, by decide, 0, by decide, by decide⟩

theorem witness_OutReadReturnsTheOutput :
    (encodedAb.status.state = .done ∧ encodedAb.status.op = .encode) ∧
    (let s := { decodedAbc 0 with status := { state := .done, op := .decode, term := .eosLength } };
      s.status.state = .done ∧ s.status.op = .decode) ∧
    (encodedAbc 0).status.state ≠ .done := by decide

/-- The last cell of the dictionary, and exactly OUT_MAX bytes. -/
theorem witness_LitDecodedAppendsAndStores :
    let s := bounded 4 { decodedAbc 0 with w := 15 }
    s.Running .decode ∧ s.w < dictSize s.cfg ∧ s.dict.wf = true ∧ withinBound s.par.outMax (s.out.length + 1) = true := by
  decide

theorem witness_LitEmittedWritesAndStores :
    let s := bounded 5 { encodedAbc 1 with w := 15 }
    s.Running .encode ∧ s.inp[s.ip]? = some 0x41#8 ∧ s.w < dictSize s.cfg ∧ s.dict.wf = true ∧
      withinBound s.par.outMax ((s.bswBits.length + 9 + 7) / 8) = true := by decide

/-- DMAX bytes from the last cell on. -/
theorem witness_MatchDecodedWithoutReuseCopies :
    let s := bounded 12 (decodedAbc 0)
    s.Running .decode ∧ s.cfg.r = 0#1 ∧ 15 < 2 ^ s.cfg.p ∧ 7 < 2 ^ s.cfg.l ∧
      withinBound s.par.outMax (s.out.length + (7 + s.cfg.m)) = true := by decide

theorem witness_MatchDecodedWithReuseCopiesByteByByte :
    let s := bounded 12 { decodedAbc 1 with w := 15 }
    s.Running .decode ∧ s.cfg.r = 1#1 ∧ 15 < 2 ^ s.cfg.p ∧ 7 < 2 ^ s.cfg.l ∧ s.w < dictSize s.cfg ∧
      withinBound s.par.outMax (s.out.length + (7 + s.cfg.m)) = true := by decide

/-- A match up to the last input byte, with and without reuse. -/
theorem witness_MatchEmittedWritesAndStores : ∀ r : BitVec 1,
    let s := bounded 5 { encodedAbc r with w := 15 }
    s.Running .encode ∧ 15 < 2 ^ s.cfg.p ∧ 1 < 2 ^ s.cfg.l ∧ s.ip + (1 + s.cfg.m) ≤ s.inp.length ∧ s.w < dictSize s.cfg ∧
      withinBound s.par.outMax ((s.bswBits.length + (1 + s.cfg.p + s.cfg.l) + 7) / 8) = true := by decide

theorem witness_EncoderWriteBackIsIdentity :
    ((encodedAbc 0).Running .encode ∧ (encodedAbc 0).Inv ∧ search (encodedAbc 0) = some (0, 3) ∧ (encodedAbc 0).cfg.r = 0#1 ∧
      ∃ t, exec (.matchRef 0 (3 - (encodedAbc 0).cfg.m)) (encodedAbc 0) = .next t) ∧
    ((encodedAbc 1).Running .encode ∧ (encodedAbc 1).Inv ∧ search (encodedAbc 1) = some (0, 3) ∧ (encodedAbc 1).cfg.r = 1#1 ∧
      (encodedAbc 1).par.reuseEnd = .inclusive ∧
      ∃ t, exec (.matchRef 0 (3 - (encodedAbc 1).cfg.m)) (encodedAbc 1) = .next t) :=
  ⟨⟨by decide, inv_encodedAbc_off, by decide, by decide, exists_next (by decide)⟩,
    by decide, inv_encodedAbc_on, by decide, by decide, by decide, exists_next (by decide)⟩

/-- Both tokens in both operations; the literal at the last cell, the match wrapping. -/
theorem witness_TokenFrame :
    (∃ t, exec (.lit 0x41#8) { encodedAbc 1 with w := 15 } = .next t) ∧
    (∃ t, exec (.lit 0x41#8) { decodedAbc 1 with w := 15 } = .next t) ∧
    (∃ t, exec (.matchRef 15 1) (encodedAbc 1) = .next t) ∧ (∃ t, exec (.matchRef 15 7) (decodedAbc 0) = .next t) :=
  ⟨exists_next (by decide), exists_next (by decide), exists_next (by decide),
    exists_next (by decide)⟩

theorem witness_TokenStopsByName :
    State.reset.status.state ≠ .busy ∧
    ((decodedAbc 0).Running .decode ∧ 2 ^ (decodedAbc 0).cfg.p ≤ 16) ∧
    ((encodedAbc 0).Running .encode ∧ 2 ^ (encodedAbc 0).cfg.l ≤ 8) ∧
    ((encodedAbc 0).inp[(encodedAbc 0).ip]? = some 0x41#8 ∧ 0x41#8 ≠ 0x42#8) ∧
    (let s := { encodedAbc 0 with ip := 6 }; s.Running .encode ∧ s.inp.length ≤ s.ip) ∧
    ((encodedAbc 0).inp.length < (encodedAbc 0).ip + (2 + (encodedAbc 0).cfg.m)) ∧
    (let s := { decodedAbc 0 with w := 16 }; s.Running .decode ∧ dictSize s.cfg ≤ s.w) := by decide

theorem witness_OutputPastOutMaxIsRefused :
    (let s := bounded 3 (decodedAbc 0);
      s.par.outMax = some 3 ∧ s.w < dictSize s.cfg ∧ s.Running .decode ∧ 3 < s.out.length + 1 ∧
        15 < 2 ^ s.cfg.p ∧ 0 < 2 ^ s.cfg.l ∧ 3 < s.out.length + (0 + s.cfg.m)) ∧
    (let s := bounded 4 (encodedAbc 0);
      s.par.outMax = some 4 ∧ s.w < dictSize s.cfg ∧ s.Running .encode ∧ 4 < (s.bswBits.length + 9 + 7) / 8 ∧
        s.inp[s.ip]? = some 0x41#8 ∧ 1 < 2 ^ s.cfg.l ∧ s.ip + (1 + s.cfg.m) ≤ s.inp.length ∧
        4 < (s.bswBits.length + (1 + s.cfg.p + s.cfg.l) + 7) / 8) := by decide

/-- A match found, and none found, with the bounds the clauses quantify over. -/
theorem witness_SearchReturnsLongestAcceptedFirstOccurrence :
    search (encodedAbc 1) = some (0, 3) ∧ search { encodedAbc 1 with w := 0 } = none ∧
    2 ≤ min (2 ^ ((encodedAbc 1).cfg.l - 1)) ((encodedAbc 1).inp.length - (encodedAbc 1).ip) := by decide

theorem witness_InclusiveTakesLowestCommittedOccurrence :
    (encodedAbc 1).cfg.r = 1#1 ∧ (encodedAbc 1).par.reuseEnd = .inclusive ∧ 1 ≤ 3 ∧
      3 ≤ (encodedAbc 1).inp.length - (encodedAbc 1).ip ∧ tryLength (encodedAbc 1) 3 = some (0, 3) := by decide

theorem witness_InclusiveMatchLiesBelowCursor :
    (encodedAbc 1).cfg.r = 1#1 ∧ (encodedAbc 1).par.reuseEnd = .inclusive ∧ 1 ≤ (encodedAbc 1).cfg.m ∧ 1 ≤ 3 ∧
      Occurs (encodedAbc 1) 0 3 ∧ search (encodedAbc 1) = some (0, 3) ∧ { encodedAbc 1 with w := 0 }.w = 0 ∧
      { encodedAbc 1 with w := 0 }.inp[(encodedAbc 1).ip]? = some 0x41#8 := by decide

theorem witness_EncoderFieldsFit : legal (encodedAbc 1).par (encodedAbc 1).cfg = true ∧
    search (encodedAbc 1) = some (0, 3) := by decide

theorem witness_StepExecutesTheTokenRead : (decodedAbc 0).HostQuiet ∧ (decodedAbc 0).Running .decode ∧
    decode (decodedAbc 0).cfg.p (decodedAbc 0).cfg.l (decodedAbc 0).inp (decodedAbc 0).bsrPos = .ok (.matchRef 0 1, 35) :=
  ⟨quiet_nil rfl, by decide, rfl⟩

/-- The four ends, at the boundaries between them: no bit left; a literal one bit short; a position one bit short; a
whole position and no bit of the length, and a length one bit short. -/
theorem witness_FirstReadPastTheEndStops :
    let d := fun (buf : List Byte) (pos : Nat) => { decoding (cfgOf 0 0) buf with bsrPos := pos }
    (∀ buf pos, (d buf pos).HostQuiet ∧ (d buf pos).Running .decode) ∧
    (d [0xFF#8] 8).bsrPos = 8 * (d [0xFF#8] 8).inp.length ∧
    ((streamBits [0x80#8])[0]? = some true ∧ 8 * [0x80#8].length < 0 + 9) ∧
    ((streamBits [0x00#8])[4]? = some false ∧ 8 * [0x00#8].length < 4 + 1 + 4) ∧
    ((streamBits [0x00#8])[3]? = some false ∧ 3 + 1 + 4 ≤ 8 * [0x00#8].length ∧ 8 * [0x00#8].length < 3 + 1 + 4 + 3) ∧
    ((streamBits [0x00#8])[1]? = some false ∧ 1 + 1 + 4 ≤ 8 * [0x00#8].length ∧ 8 * [0x00#8].length < 1 + 1 + 4 + 3) :=
  ⟨fun _ _ => ⟨quiet_nil rfl, rfl, rfl⟩, by decide, by decide, by decide, by decide,
    by decide⟩

theorem witness_StepEmitsOneTokenOrEnds :
    (∀ k, { encodedAbc 1 with ip := k }.HostQuiet ∧ { encodedAbc 1 with ip := k }.Running .encode) ∧
    { encodedAbc 1 with ip := 6 }.ip = (encodedAbc 1).inp.length ∧
    ((encodedAbc 1).ip < (encodedAbc 1).inp.length ∧ search (encodedAbc 1) = some (0, 3)) ∧
    (5 < (encodedAbc 1).inp.length ∧ search { encodedAbc 1 with ip := 5 } = none) :=
  ⟨fun _ => ⟨quiet_nil rfl, rfl, rfl⟩, by decide, by decide, by decide⟩

theorem witness_HostTransactionRunsInItsTurn :
    { encodedAbc 0 with schedule := [.transact .statusRead] }.schedule = .transact .statusRead :: [] ∧
    { State.reset with schedule := [.pause] }.HostQuiet ∧
    { State.reset with schedule := [.pause] }.status.state ≠ .busy :=
  ⟨rfl, fun _ _ => by simp, by decide⟩

theorem witness_PlacedWordIsTheNextInstruction : decodeTableWord 9 0b100000101 = some (.lit 0x41#8) := by decide

theorem witness_EncoderStepAppendsTokenBits : (encodedAbc 1).HostQuiet ∧ (encodedAbc 1).Running .encode ∧
    (encodedAbc 1).Inv ∧ (encodedAbc 1).ip < (encodedAbc 1).inp.length ∧ ∃ t, step (encodedAbc 1) = .next t :=
  ⟨quiet_nil rfl, by decide, inv_encodedAbc_on, by decide, exists_next (by decide)⟩

theorem witness_MatchWithoutReuseLeavesTheWindow :
    ((decodedAbc 0).HostQuiet ∧ (decodedAbc 0).Inv ∧ (decodedAbc 0).cfg.r = 0#1 ∧ (∃ t, step (decodedAbc 0) = .next t) ∧
      (decodedAbc 0).Running .decode ∧ decode 4 3 (decodedAbc 0).inp (decodedAbc 0).bsrPos = .ok (.matchRef 0 1, 35)) ∧
    ((encodedAbc 0).HostQuiet ∧ (encodedAbc 0).Inv ∧ (encodedAbc 0).cfg.r = 0#1 ∧ (∃ t, step (encodedAbc 0) = .next t) ∧
      (encodedAbc 0).Running .encode ∧ search (encodedAbc 0) ≠ none) :=
  ⟨⟨quiet_nil rfl, inv_decodedAbc_off, rfl, exists_next (by decide), by decide, rfl⟩,
    quiet_nil rfl, inv_encodedAbc_off, rfl, exists_next (by decide), by decide, by decide⟩

theorem witness_StepKeepsTheInvariant : (encodedAbc 1).Inv ∧ ∃ t, step (encodedAbc 1) = .next t :=
  ⟨inv_encodedAbc_on, exists_next (by decide)⟩

/-- A host's refused OUT_READ, and a token past OUT_MAX. -/
theorem witness_OnlyTheSpecsRefusalsStop :
    (let s := { encodedAbc 1 with schedule := [.transact .outRead] }; s.Inv ∧ step s = .refused .outputNotReady) ∧
    (let s := bounded 4 (encodedAbc 1); s.Inv ∧ step s = .refused .outputTooLong) :=
  ⟨⟨by constructor <;> decide, exists_refused (by decide)⟩,
    by constructor <;> decide, exists_refused (by decide)⟩

theorem witness_TokenStepAlwaysCompletes : (decodedAbc 1).Inv ∧ (decodedAbc 1).status.state = .busy ∧
    (decodedAbc 1).HostQuiet ∧ (decodedAbc 1).par.outMax = none :=
  ⟨inv_decodedAbc_on, rfl, quiet_nil rfl, rfl⟩

theorem witness_EncodeEnds : (encodedAbc 1).Inv ∧ (encodedAbc 1).Running .encode ∧ (encodedAbc 1).schedule = [] ∧
    (encodedAbc 1).par.outMax = none := ⟨inv_encodedAbc_on, by decide, rfl, rfl⟩

theorem witness_DecodeEnds : (decodedAbc 1).Inv ∧ (decodedAbc 1).Running .decode ∧ (decodedAbc 1).schedule = [] ∧
    (decodedAbc 1).par.outMax = none := ⟨inv_decodedAbc_on, by decide, rfl, rfl⟩

theorem witness_EncoderStepBitCost : (encodedAbc 0).HostQuiet ∧ (encodedAbc 0).Inv ∧ (encodedAbc 0).Running .encode ∧
    (encodedAbc 0).ip < (encodedAbc 0).inp.length ∧ ∃ t, step (encodedAbc 0) = .next t :=
  ⟨quiet_nil rfl, inv_encodedAbc_off, by decide, by decide, exists_next (by decide)⟩

theorem witness_DecoderStepBounds : (decodedAbc 1).HostQuiet ∧ (decodedAbc 1).Inv ∧ (decodedAbc 1).Running .decode ∧
    ((nextOf (step (decodedAbc 1))).map fun t => t.status.state) = some .busy :=
  ⟨quiet_nil rfl, inv_decodedAbc_on, by decide, by decide⟩

theorem witness_OnlyTheirWritersChangeConfigAndInput :
    (∃ t, exec (.matchRef 0 1) (encodedAbc 1) = .next t) ∧ (∃ t, exec (.cfgWrite 4 3 2 0 1) encodedAb = .next t) ∧
    (∃ t, exec (.startDecode [0x00#8]) encodedAb = .next t) :=
  ⟨exists_next (by decide), exists_next (by decide), exists_next (by decide)⟩

theorem witness_RunningOperationKeepsConfigAndInput : (decodedAbc 1).status.state = .busy ∧
    ∃ t, step (decodedAbc 1) = .next t := ⟨rfl, exists_next (by decide)⟩

/-- A START from DONE, and the end of an ENCODE. -/
theorem witness_StateMovesOnlyAtStartAndStop :
    (∃ t, step { encodedAb with schedule := [.transact (.startEncode [])] } = .next t ∧
      t.status.state ≠ encodedAb.status.state) ∧
    (∃ t, step { encodedAbc 1 with ip := 6 } = .next t ∧ t.status.state ≠ (encodedAbc 1).status.state) :=
  ⟨⟨_, rfl, by decide⟩, _, rfl, by decide⟩

theorem witness_OutputOnlyGrowsDuringOperation : (encodedAbc 1).status.state = .busy ∧
    ∃ t, step (encodedAbc 1) = .next t := ⟨rfl, exists_next (by decide)⟩

theorem witness_OutputIsFixedUntilNextStart :
    encodedAb.status.state = .done ∧ ∃ t, step { encodedAb with schedule := [.transact .outRead] } = .next t ∧
      t.status.state = .done := ⟨rfl, _, rfl, rfl⟩

theorem witness_DecoderTracksEncoderWindow :
    (encodedAbc 1).Running .encode ∧ (encodedAbc 1).Inv ∧ (encodedAbc 1).par.reuseEnd = .inclusive ∧
    (encodedAbc 1).ip < (encodedAbc 1).inp.length ∧ nextToken (encodedAbc 1) = some (.matchRef 0 1) ∧
    (decodedAbc 1).Running .decode ∧ (decodedAbc 1).cfg = (encodedAbc 1).cfg ∧
    (decodedAbc 1).dict = (encodedAbc 1).dict ∧ (decodedAbc 1).w = (encodedAbc 1).w ∧
    (encodedAbc 1).par.outMax = none ∧ (decodedAbc 1).par.outMax = none :=
  ⟨by decide, inv_encodedAbc_on, rfl, by decide, by decide, by decide, rfl, rfl, rfl, rfl, rfl⟩

/-- After one step of vector ENC15's encoder. -/
theorem witness_WindowsAgreeAfterEveryToken :
    encodedAb.cfgValid = true ∧ legal encodedAb.par encodedAb.cfg = true ∧ encodedAb.par.reuseEnd = .inclusive ∧
    encodedAb.par.outMax = none ∧ encodedAb.schedule = [] ∧
    ∃ e, runSteps 1 (startOperation .encode [0x41#8] encodedAb) = .next e :=
  ⟨rfl, by decide, rfl, rfl, rfl, exists_next (by decide)⟩

/-- A state after an earlier operation. -/
theorem witness_DecodeOfEncodeGivesTheInput :
    encodedAb.status.state ≠ .busy ∧ encodedAb.cfgValid = true ∧ legal encodedAb.par encodedAb.cfg = true ∧
    encodedAb.par.reuseEnd = .inclusive ∧ encodedAb.par.inMax = none ∧ encodedAb.par.outMax = none ∧
    encodedAb.schedule = [] ∧ encodedAb.Inv :=
  ⟨by decide, rfl, by decide, rfl, rfl, rfl, rfl, inv_encodedAb⟩

/-- An instance fresh from its CFG_WRITE and one with an earlier operation behind it. -/
theorem witness_OperationDependsOnConfigAndInputOnly :
    let a := configured encodedAb.cfg
    a.cfg = encodedAb.cfg ∧ a.cfgValid = encodedAb.cfgValid ∧ a.par = encodedAb.par ∧ a.schedule = [] ∧
    encodedAb.schedule = [] ∧ a.dict ≠ encodedAb.dict := by decide

end Sys2Proof.Tests
end

section
/-! How STATUS moves (10_state.md R30): what a token, a token step and a transaction can do to it, and the two
transitions of STATE that follow. -/

namespace Sys2Proof.Machine

/-- A token leaves STATUS alone: only `stop` and START move it. -/
theorem token_status {i : Instr} {s t : State} (hi : (∃ b, i = .lit b) ∨ (∃ p f, i = .matchRef p f))
    (h : exec i s = .next t) : t.status = s.status := by
  obtain ⟨⟨-, -, hstatus, -⟩, -⟩ := token_next hi h
  exact hstatus

/-- Every read that meets the end of the stream names a cause (10_state.md R31). -/
theorem termOf_ne_none (r : Reject) : termOf r ≠ .none := by
  cases r <;> simp [termOf]

theorem encStep_status {s t : State} (h : encStep s = .next t) :
    t.status = s.status ∨ t.status = statusStopped s.status .inputEnd := by
  obtain ⟨-, rfl⟩ | ⟨-, i, hi, hx⟩ := encStep_next h
  · exact .inr (stop_status _ _)
  · exact .inl (token_status (isToken_of_next hi) hx)

theorem decStep_status {s t : State} (h : decStep s = .next t) :
    t.status = s.status ∨ ∃ r, t.status = statusStopped s.status (termOf r) := by
  obtain ⟨r, -, rfl⟩ | ⟨i, pos', hi, hx⟩ := decStep_next h
  · exact .inr ⟨r, stopAtEnd_status _ _⟩
  · exact .inl (token_status (s := { s with bsrPos := pos' }) (isToken_of_fetch hi) hx)

/-- A transaction leaves STATUS alone, or it is a START, made while no operation runs (43_interface.md R173, R174). -/
theorem hostOp_status {op : HostOp} {s t : State} (h : exec op.instr s = .next t) :
    t.status = s.status ∨
    (s.status.state ≠ .busy ∧ ∃ o buf, t.status = statusStarted o ∧ (op = .startEncode buf ∨ op = .startDecode buf)) := by
  obtain ⟨p, l, m, ini, r, -, -, rfl⟩ | ⟨o, buf, hop, hidle, -, -, rfl⟩ | ⟨r, rfl⟩ := hostOp_next h
  · exact .inl rfl
  · exact .inr ⟨hidle, o, buf, startOperation_status _ _ _, hop.imp And.left And.left⟩
  · exact .inl (give_status _ _)

/-- What one step can do to STATUS: nothing, a START the host made, or a stop of the running operation by a named
cause. -/
theorem step_status {s t : State} (h : step s = .next t) :
    t.status = s.status ∨
    (s.status.state ≠ .busy ∧ ∃ o buf rest, t.status = statusStarted o ∧
      (s.schedule = .transact (.startEncode buf) :: rest ∨ s.schedule = .transact (.startDecode buf) :: rest)) ∨
    (s.status.state = .busy ∧ s.HostQuiet ∧ ∃ cause, cause ≠ .none ∧ t.status = statusStopped s.status cause) := by
  obtain ⟨op, rest, hs, hx⟩ | ⟨-, -, rfl⟩ | ⟨hq, ⟨hb, -⟩, hx⟩ | ⟨hq, ⟨hb, -⟩, hx⟩ := step_next h
  · obtain hkeep | ⟨hidle, o, buf, ht, rfl | rfl⟩ := hostOp_status hx
    · exact .inl hkeep
    · exact .inr (.inl ⟨hidle, o, buf, rest, ht, .inl hs⟩)
    · exact .inr (.inl ⟨hidle, o, buf, rest, ht, .inr hs⟩)
  · exact .inl (afterPause_status s)
  · exact (encStep_status hx).imp_right fun ht => .inr ⟨hb, hq, .inputEnd, by simp, ht⟩
  · exact (decStep_status hx).imp_right fun ⟨r, ht⟩ => .inr ⟨hb, hq, termOf r, termOf_ne_none r, ht⟩

/-- Settles O53: of the three things a step can do to STATUS, START and `stop` are the two that change STATE. -/
theorem stateMovesOnlyAtStartAndStop : Obligations.StateMovesOnlyAtStartAndStop := by
  intro s t h hmoved
  obtain hkeep | ⟨hidle, o, buf, rest, ht, hs⟩ | ⟨hb, hq, cause, hcause, ht⟩ := step_status h
  · exact absurd (congrArg Status.state hkeep) hmoved
  · exact .inl ⟨hidle, by rw [ht]; rfl, buf, rest, hs⟩
  · exact .inr ⟨hb, by rw [ht]; rfl, hq, by rw [ht]; exact hcause⟩

end Sys2Proof.Machine
end

section
/-! The bit order (20_memory.md R55), and who writes CFG and IN (20_memory.md R53, R66, 10_state.md R26, R27): what an
instruction and a step keep of the configuration, the input buffer and the parameters. -/

namespace Sys2Proof.Machine

/-! ### The bit order -/

/-- Packing writes bit `k` of a sequence where the stream view reads it; the padding stands after all of them. -/
theorem packBytes_bit {s : Bits} {k : Nat} (h : k < s.length) :
    ((packBytes s)[k / 8]?).map (fun b => b.getLsbD (7 - k % 8)) = s[k]? := by
  rw [← Laws.streamBits_getElem?, Laws.streamBits_packBytes, padBits, List.getElem?_append_left h]

/-- Settles O6: the stream view reads each byte from bit 7 down, and it reads the packed bytes back as the bits
written. -/
theorem bitsAreMostSignificantFirst : Obligations.BitsAreMostSignificantFirst :=
  ⟨Laws.streamBits_getElem?, fun _ _ => packBytes_bit⟩

/-! ### The configuration and the input -/

/-- `t` has the configuration, the input buffer and the parameters of `s`. -/
structure SameConfigAndInput (s t : State) : Prop where
  cfg : t.cfg = s.cfg
  cfgValid : t.cfgValid = s.cfgValid
  inp : t.inp = s.inp
  par : t.par = s.par

theorem SameConfigAndInput.after {s u t : State} (hut : SameConfigAndInput u t) (hsu : SameConfigAndInput s u) :
    SameConfigAndInput s t :=
  ⟨hut.cfg.trans hsu.cfg, hut.cfgValid.trans hsu.cfgValid, hut.inp.trans hsu.inp, hut.par.trans hsu.par⟩

theorem token_sameConfigAndInput {i : Instr} {s t : State} (hi : (∃ b, i = .lit b) ∨ (∃ p f, i = .matchRef p f))
    (h : exec i s = .next t) : SameConfigAndInput s t := by
  obtain ⟨⟨hcfg, hvalid, -, hinp, hpar, -⟩, -⟩ := token_next hi h
  exact ⟨hcfg, hvalid, hinp, hpar⟩

/-- An instruction that is no transaction of the host is a token, whose stores reach DICT alone, or a bit-stream
primitive, which changes `BSW.bits`, `BSR.pos` and `ret` alone. -/
theorem exec_sameConfigAndInput_or_transaction {i : Instr} {s t : State} (h : exec i s = .next t) :
    SameConfigAndInput s t ∨ ∃ op : HostOp, i = op.instr := by
  cases i with
  | lit b => exact .inl (token_sameConfigAndInput (.inl ⟨b, rfl⟩) h)
  | matchRef pos lenf => exact .inl (token_sameConfigAndInput (.inr ⟨pos, lenf, rfl⟩) h)
  | bswWrite v n => cases h; exact .inl ⟨rfl, rfl, rfl, rfl⟩
  | bswBytes => cases h; exact .inl ⟨rfl, rfl, rfl, rfl⟩
  | bsrRead n => cases h; exact .inl ⟨rfl, rfl, rfl, rfl⟩
  | bsrEof => cases h; exact .inl ⟨rfl, rfl, rfl, rfl⟩
  | cfgWrite p l m ini r => exact .inr ⟨.cfgWrite p l m ini r, rfl⟩
  | cfgRead => exact .inr ⟨.cfgRead, rfl⟩
  | startEncode buf => exact .inr ⟨.startEncode buf, rfl⟩
  | startDecode buf => exact .inr ⟨.startDecode buf, rfl⟩
  | statusRead => exact .inr ⟨.statusRead, rfl⟩
  | outRead => exact .inr ⟨.outRead, rfl⟩

/-- Settles O51: only a transaction can write CFG or IN, and of the transactions CFG_WRITE writes CFG and CFG_VALID
alone and a START writes no configuration. -/
theorem onlyTheirWritersChangeConfigAndInput : Obligations.OnlyTheirWritersChangeConfigAndInput := by
  intro i s t h
  obtain hsame | ⟨op, rfl⟩ := exec_sameConfigAndInput_or_transaction h
  · exact ⟨hsame.par, fun _ => ⟨hsame.cfg, hsame.cfgValid⟩, fun _ => hsame.inp⟩
  · obtain ⟨p, l, m, ini, r, rfl, -, rfl⟩ | ⟨o, buf, hop, -, -, -, rfl⟩ | ⟨r, rfl⟩ := hostOp_next h
    · exact ⟨rfl, fun hne => absurd rfl (hne p l m ini r), fun _ => rfl⟩
    · refine ⟨rfl, fun _ => ⟨rfl, rfl⟩, fun hne => ?_⟩
      obtain ⟨hencode, hdecode⟩ := hne buf
      obtain ⟨rfl, -⟩ | ⟨rfl, -⟩ := hop
      · exact absurd rfl hencode
      · exact absurd rfl hdecode
    · exact ⟨rfl, fun _ => ⟨rfl, rfl⟩, fun _ => rfl⟩

/-- While BUSY, CFG_WRITE and START are refused, and every other transaction changes `ret` alone. -/
theorem busy_hostOp_sameConfigAndInput {op : HostOp} {s t : State} (hb : s.status.state = .busy)
    (h : exec op.instr s = .next t) : SameConfigAndInput s t := by
  obtain ⟨-, -, -, -, -, -, hidle, -⟩ | ⟨-, -, -, hidle, -⟩ | ⟨r, rfl⟩ := hostOp_next h
  · exact absurd hb hidle
  · exact absurd hb hidle
  · exact ⟨rfl, rfl, rfl, rfl⟩

/-- ENC.STEP stops the operation or emits a token. -/
theorem encStep_sameConfigAndInput {s t : State} (h : encStep s = .next t) : SameConfigAndInput s t := by
  obtain ⟨-, rfl⟩ | ⟨-, i, hi, hx⟩ := encStep_next h
  · exact ⟨rfl, rfl, rfl, rfl⟩
  · exact token_sameConfigAndInput (isToken_of_next hi) hx

/-- DEC.STEP stops the operation, or moves `BSR.pos` and executes a token. -/
theorem decStep_sameConfigAndInput {s t : State} (h : decStep s = .next t) : SameConfigAndInput s t := by
  obtain ⟨r, -, rfl⟩ | ⟨i, pos', hi, hx⟩ := decStep_next h
  · exact ⟨rfl, rfl, rfl, rfl⟩
  · exact (token_sameConfigAndInput (isToken_of_fetch hi) hx).after ⟨rfl, rfl, rfl, rfl⟩

theorem busy_step_sameConfigAndInput {s t : State} (hb : s.status.state = .busy) (h : step s = .next t) :
    SameConfigAndInput s t := by
  obtain ⟨op, rest, -, hx⟩ | ⟨-, hidle, -⟩ | ⟨-, -, hx⟩ | ⟨-, -, hx⟩ := step_next h
  · exact (busy_hostOp_sameConfigAndInput (s := { s with schedule := rest }) hb hx).after ⟨rfl, rfl, rfl, rfl⟩
  · exact absurd hb hidle
  · exact (encStep_sameConfigAndInput hx).after ⟨rfl, rfl, rfl, rfl⟩
  · exact (decStep_sameConfigAndInput hx).after ⟨rfl, rfl, rfl, rfl⟩

/-- Settles O52: the host's writers are refused while BUSY, and a token step keeps CFG and IN. -/
theorem runningOperationKeepsConfigAndInput : Obligations.RunningOperationKeepsConfigAndInput := by
  intro s t hb h
  obtain ⟨hcfg, hvalid, hinp, hpar⟩ := busy_step_sameConfigAndInput hb h
  exact ⟨hcfg, hvalid, hinp, hpar⟩

end Sys2Proof.Machine
end

section
/-! The token format (30_encoding.md R73 to R75, R79): what the flag bit fixes, what the operands of a token that is read
say about the stream's bits, and the size of a token list. -/

namespace Sys2Proof.Laws

/-! ### The flag bit fixes format and length -/

theorem decodeBits_of_flag_one {P L : Nat} {s : Bits} {pos : Nat} (hflag : s[pos]? = some true)
    (hfit : pos + 9 ≤ s.length) :
    decodeBits P L s pos = .ok (.lit (BitVec.ofNat 8 (bitsValue ((s.drop (pos + 1)).take 8))), pos + 9) := by
  rw [decodeBits_flag_one P L s pos hflag, decodeLit, readField_value s (pos + 1) 8 hfit]

theorem decodeBits_of_flag_zero {P L : Nat} {s : Bits} {pos : Nat} (hflag : s[pos]? = some false)
    (hfit : pos + (1 + P + L) ≤ s.length) :
    decodeBits P L s pos = .ok (.matchRef (bitsValue ((s.drop (pos + 1)).take P))
      (bitsValue ((s.drop (pos + 1 + P)).take L)), pos + (1 + P + L)) := by
  have hend : pos + (1 + P + L) = pos + 1 + P + L := by omega
  have hposition := readField_value s (pos + 1) P (by omega)
  have hlength := readField_value s (pos + 1 + P) L (by omega)
  simp only [decodeBits_flag_zero P L s pos hflag, decodeMatch, hposition, hlength, hend]

/-- Settles O3: with the flag known and the token's bits left, no later read of the decoder can meet the end. -/
theorem flagBitFixesFormatAndLength : Obligations.FlagBitFixesFormatAndLength := fun _ _ _ _ =>
  ⟨fun hflag hfit => ⟨_, decodeBits_of_flag_one hflag hfit⟩,
    fun hflag hfit => ⟨_, _, decodeBits_of_flag_zero hflag hfit⟩⟩

/-! ### The operands of a token that is read -/

/-- A LIT that is read stands whole in the stream, and its byte is the 8-bit field. -/
theorem decodeBits_lit {P L : Nat} {s : Bits} {pos pos' : Nat} {b : Byte}
    (h : decodeBits P L s pos = .ok (.lit b, pos')) :
    pos + 1 + 8 ≤ s.length ∧ b = BitVec.ofNat 8 (bitsValue ((s.drop (pos + 1)).take 8)) := by
  obtain ⟨-, e⟩ | ⟨-, -, e⟩ | ⟨-, hfit, e⟩ | ⟨-, -, e⟩ | ⟨-, -, -, e⟩ | ⟨-, -, e⟩ := decodeBits_cases P L s pos <;>
    cases h.symm.trans e
  exact ⟨hfit, rfl⟩

/-- A MATCH that is read stands whole in the stream, and its operands are the two fields. -/
theorem decodeBits_matchRef {P L : Nat} {s : Bits} {pos pos' p f : Nat}
    (h : decodeBits P L s pos = .ok (.matchRef p f, pos')) :
    pos + 1 + P + L ≤ s.length ∧ p = bitsValue ((s.drop (pos + 1)).take P) ∧
      f = bitsValue ((s.drop (pos + 1 + P)).take L) := by
  obtain ⟨-, e⟩ | ⟨-, -, e⟩ | ⟨-, -, e⟩ | ⟨-, -, e⟩ | ⟨-, -, -, e⟩ | ⟨-, hfit, e⟩ := decodeBits_cases P L s pos <;>
    cases h.symm.trans e
  exact ⟨hfit, rfl, rfl⟩

theorem fieldValue_lt {s : Bits} {pos n : Nat} (h : pos + n ≤ s.length) :
    bitsValue ((s.drop pos).take n) < 2 ^ n := by
  simpa only [drop_take_length s pos n h] using bitsValue_lt ((s.drop pos).take n)

/-- The bits of a field's value are the field's stream bits, most significant first. -/
theorem getElem?_eq_testBit_fieldValue {s : Bits} {pos n j : Nat} (h : pos + n ≤ s.length) (hj : j < n) :
    s[pos + j]? = some ((bitsValue ((s.drop pos).take n)).testBit (n - 1 - j)) := by
  have hlen := drop_take_length s pos n h
  rw [← drop_take_getElem? s pos n j hj, ← testBit_bitsValue _ j (hlen.symm ▸ hj), hlen]

theorem decodeBits_lit_bit {P L : Nat} {s : Bits} {pos pos' : Nat} {b : Byte}
    (h : decodeBits P L s pos = .ok (.lit b, pos')) {j : Nat} (hj : j < 8) :
    s[pos + 1 + j]? = some (b.getLsbD (7 - j)) := by
  obtain ⟨hfit, rfl⟩ := decodeBits_lit h
  have hlow : 7 - j < 8 := by omega
  rw [getElem?_eq_testBit_fieldValue hfit hj, BitVec.getLsbD_ofNat, decide_eq_true hlow, Bool.true_and]

/-- The match length's range, `M` to `DMAX` (30_encoding.md R75). -/
theorem matchLength_range (c : Machine.Cfg) {f : Nat} (h : f < 2 ^ c.l) :
    c.m ≤ Machine.matchLength c f ∧ Machine.matchLength c f ≤ c.m + 2 ^ c.l - 1 := by
  rw [Machine.matchLength]
  omega

/-- Settles O4: each operand is the value of its field, whose bits and range are those of any field. -/
theorem operandsAreTheirFields : Obligations.OperandsAreTheirFields := by
  intro c s pos pos'
  refine ⟨fun b h j hj => decodeBits_lit_bit h hj, fun p f h => ?_⟩
  obtain ⟨hfit, rfl, rfl⟩ := decodeBits_matchRef h
  have hposition : pos + 1 + c.p ≤ s.length := by omega
  have hlength := fieldValue_lt hfit
  exact ⟨fieldValue_lt hposition, fun _ => getElem?_eq_testBit_fieldValue hposition,
    hlength, fun _ => getElem?_eq_testBit_fieldValue hfit, rfl, matchLength_range c hlength⟩

/-! ### The size of a token list -/

theorem encodeAll_cons (P L : Nat) (i : Instr) (is : List Instr) :
    encodeAll P L (i :: is) = (encode P L i).getD [] ++ encodeAll P L is := List.flatMap_cons

theorem encodeAll_append (P L : Nat) (is js : List Instr) :
    encodeAll P L (is ++ js) = encodeAll P L is ++ encodeAll P L js := List.flatMap_append

/-- The order of the tokens does not matter for the size. -/
theorem encodeAll_length_perm (P L : Nat) {is js : List Instr} (h : is.Perm js) :
    (encodeAll P L is).length = (encodeAll P L js).length :=
  (h.flatMap_right _).length_eq

/-- Tokens of one format take its length each. -/
theorem encodeAll_length_of_forall {P L n : Nat} {is : List Instr}
    (h : ∀ i ∈ is, (encode P L i).map List.length = some n) : (encodeAll P L is).length = n * is.length := by
  induction is with
  | nil => rfl
  | cons i is ih =>
    obtain ⟨hi, his⟩ := List.forall_mem_cons.mp h
    obtain ⟨bits, he, hn⟩ := Option.map_eq_some_iff.mp hi
    rw [encodeAll_cons, List.length_append, ih his, he, Option.getD_some, hn, List.length_cons, Nat.mul_succ,
      Nat.add_comm]

theorem encodeAll_lits_length (P L : Nat) (lits : List Byte) :
    (encodeAll P L (lits.map Instr.lit)).length = 9 * lits.length := by
  rw [encodeAll_length_of_forall (List.forall_mem_map.mpr fun b _ => EncodedLength.lit b P L), List.length_map]

theorem encodeAll_matches_length (P L : Nat) (ms : List (Nat × Nat)) :
    (encodeAll P L (ms.map fun m => Instr.matchRef m.1 m.2)).length = (1 + P + L) * ms.length := by
  rw [encodeAll_length_of_forall (List.forall_mem_map.mpr fun m _ => EncodedLength.matchRef m.1 m.2 P L),
    List.length_map]

/-- Zero padding to whole bytes rounds the byte count up. -/
theorem packBytes_length_eq_ceil (s : Bits) : (packBytes s).length = (s.length + 7) / 8 := by
  rw [packBytes_length, padCount]
  omega

/-- Settles O7: the size is that of the LITs and then the MATCHes, whatever the order, and packing rounds it up to whole
bytes. -/
theorem streamSizeFollowsFromTokens : Obligations.StreamSizeFollowsFromTokens := by
  intro P L lits ms is hperm
  have hbits : (encodeAll P L is).length = 9 * lits.length + (1 + P + L) * ms.length := by
    rw [encodeAll_length_perm P L hperm, encodeAll_append, List.length_append, encodeAll_lits_length,
      encodeAll_matches_length]
  exact ⟨hbits, by rw [packBytes_length_eq_ceil, hbits]⟩

end Sys2Proof.Laws
end

section
/-! The bit-stream primitives (40_bitstream.md R101 to R109): what a write appends, the packed bytes as sums of their
bits' weights, what a read and an end test answer, and a list of fields read back from the bytes it was packed into. -/

namespace Sys2Proof.Laws

/-! ### The value of a bit sequence as a sum of weights -/

/-- Most significant first: bit `t` of `n` weighs `2 ^ (n - 1 - t)`. -/
theorem bitsValue_eq_sum_weights (s : Bits) :
    bitsValue s = ((List.range s.length).map fun t => (s.getD t false).toNat * 2 ^ (s.length - 1 - t)).sum := by
  induction s with
  | nil => rfl
  | cons b s ih =>
    rw [bitsValue_cons, ih, List.length_cons, List.sum_range_succ']
    simp [Nat.sub_sub, Nat.add_comm]

/-- The padding does not show under a default of zero bits. -/
theorem padBits_getD (s : Bits) (k : Nat) : (padBits s).getD k false = s.getD k false := by
  by_cases h : k < s.length
  · rw [padBits, List.getD_append _ _ _ _ h]
  · have hk : s.length ≤ k := Nat.le_of_not_lt h
    rw [padBits, List.getD_append_right _ _ _ _ hk, List.getD_eq_default _ _ hk, List.getD_eq_getElem?_getD,
      List.getElem?_getD_replicate_default_eq]

/-- A packed byte stands whole in the padded bits. -/
theorem packBytes_byte_fits {s : Bits} {j : Nat} (h : j < (packBytes s).length) : 8 * j + 8 ≤ (padBits s).length := by
  have hbytes := eight_mul_packBytes_length s
  rw [padBits_length]
  omega

/-- A packed byte's value is that of its eight bits. -/
theorem packBytes_getElem?_toNat {s : Bits} {j : Nat} (h : j < (packBytes s).length) :
    (packBytes s)[j]?.map BitVec.toNat = some (bitsValue (((padBits s).drop (8 * j)).take 8)) := by
  have hfit := packBytes_byte_fits h
  have hj : j < (padBits s).length / 8 := by omega
  simpa [packBytes, List.getElem?_range hj] using fieldValue_lt hfit

theorem packBytes_getElem?_toNat_eq_sum {s : Bits} {j : Nat} (h : j < (packBytes s).length) :
    (packBytes s)[j]?.map BitVec.toNat =
      some (((List.range 8).map fun t => (s.getD (8 * j + t) false).toNat * 2 ^ (7 - t)).sum) := by
  rw [packBytes_getElem?_toNat h, bitsValue_eq_sum_weights, drop_take_length _ _ _ (packBytes_byte_fits h)]
  congr 2
  refine List.map_congr_left fun t ht => ?_
  rw [List.getD_eq_getElem?_getD, drop_take_getElem? _ _ _ _ (List.mem_range.mp ht), ← List.getD_eq_getElem?_getD,
    padBits_getD]

/-! ### A list of fields -/

/-- The bits of the fields `(v, n)` of a list, one field after another. -/
def fieldListBits (fs : List (Nat × Nat)) : Bits := fs.flatMap fun f => fieldBits f.2 f.1

@[simp] theorem fieldListBits_nil : fieldListBits [] = [] := rfl

theorem fieldListBits_cons (f : Nat × Nat) (fs : List (Nat × Nat)) :
    fieldListBits (f :: fs) = fieldBits f.2 f.1 ++ fieldListBits fs := List.flatMap_cons

theorem fieldListBits_append (fs gs : List (Nat × Nat)) :
    fieldListBits (fs ++ gs) = fieldListBits fs ++ fieldListBits gs := List.flatMap_append

@[simp] theorem fieldListBits_length (fs : List (Nat × Nat)) :
    (fieldListBits fs).length = (fs.map Prod.snd).sum := by
  simp only [fieldListBits, List.length_flatMap, fieldBits_length]

end Sys2Proof.Laws

namespace Sys2Proof.Machine

/-! ### BSW.WRITE and BSW.BYTES -/

theorem exec_bswWrite (v n : Nat) (s : State) : exec (.bswWrite v n) s = .next (writeBits v n s) := rfl

/-- Settles O10: the bits appended are those of the field, and the bits before them keep their places. -/
theorem bswWriteAppendsLowBits : Obligations.BswWriteAppendsLowBits := by
  intro v n s
  refine ⟨writeBits v n s, exec_bswWrite v n s, rfl, by simp, fun k hk => ?_, fun i hi => ?_⟩
  · rw [writeBits_bswBits, List.getElem?_append_left hk]
  · rw [writeBits_bswBits, List.getElem?_append_right (Nat.le_add_right _ _), Nat.add_sub_cancel_left,
      Laws.fieldBits_getElem? n v i hi]

/-- Settles O11: a packed byte is the value of its eight bits, which is the sum of their weights. -/
theorem bswBytesPacksAndPads : Obligations.BswBytesPacksAndPads := fun s =>
  ⟨packBytes s.bswBits, rfl, Laws.eight_mul_packBytes_length s.bswBits,
    fun _ hj => Laws.packBytes_getElem?_toNat_eq_sum hj⟩

/-! ### BSR.READ and BSR.EOF -/

theorem exec_bsrRead (n : Nat) (s : State) :
    exec (.bsrRead n) s = .next { s with
      bsrPos := (readField (streamBits s.inp) s.bsrPos n).2
      ret := .field (readField (streamBits s.inp) s.bsrPos n).1 } := rfl

/-- BSR.READ hands over what the read of the field gives and leaves the cursor where that read does. -/
theorem exec_bsrRead_of_readField {n pos' : Nat} {r : Option Nat} {s : State}
    (h : readField (streamBits s.inp) s.bsrPos n = (r, pos')) :
    exec (.bsrRead n) s = .next { s with bsrPos := pos', ret := .field r } := by
  rw [exec_bsrRead, h]

theorem exec_bsrRead_value {n : Nat} {s : State} (h : s.bsrPos + n ≤ 8 * s.inp.length) :
    exec (.bsrRead n) s = .next { s with
      bsrPos := s.bsrPos + n
      ret := .field (some (bitsValue (((streamBits s.inp).drop s.bsrPos).take n))) } :=
  exec_bsrRead_of_readField (Laws.readField_value _ _ _ (by rwa [Laws.streamBits_length]))

theorem exec_bsrRead_eos {n : Nat} {s : State} (h : 8 * s.inp.length < s.bsrPos + n) :
    exec (.bsrRead n) s = .next { s with bsrPos := 8 * s.inp.length, ret := .field none } := by
  rw [← Laws.streamBits_length] at h ⊢
  exact exec_bsrRead_of_readField (Laws.readField_end _ _ _ h)

/-- A read where `bits` stands in the stream. -/
theorem exec_bsrRead_at {before bits after : Bits} {n : Nat} {s : State}
    (hs : streamBits s.inp = before ++ bits ++ after) (hpos : s.bsrPos = before.length) (hn : bits.length = n) :
    exec (.bsrRead n) s = .next { s with bsrPos := before.length + n, ret := .field (some (bitsValue bits)) } :=
  exec_bsrRead_of_readField (by rw [hs, hpos, Laws.readField_at _ _ _ n hn])

/-- Settles O12: with the bits left the value is read, whose bits are the stream's; with fewer the read is EOS. -/
theorem bsrReadReturnsFieldOrEos : Obligations.BsrReadReturnsFieldOrEos := by
  refine fun n s => ⟨fun hfit => ?_, exec_bsrRead_eos⟩
  have hstream : s.bsrPos + n ≤ (streamBits s.inp).length := by rwa [Laws.streamBits_length]
  exact ⟨_, exec_bsrRead_value hfit, Laws.fieldValue_lt hstream,
    fun _ hi => Laws.getElem?_eq_testBit_fieldValue hstream hi⟩

theorem exec_bsrEof (s : State) :
    exec .bsrEof s = .next { s with ret := .flag (decide (s.bsrPos = 8 * s.inp.length)) } := rfl

/-- Settles O13: the flag is the test of the cursor against the end of the input. -/
theorem bsrEofTellsWhetherAllIsRead : Obligations.BsrEofTellsWhetherAllIsRead := fun s =>
  ⟨fun hend => by rw [exec_bsrEof, decide_eq_true hend], fun hleft => by rw [exec_bsrEof, decide_eq_false hleft]⟩

/-! ### Sequences of writes and of reads -/

theorem execAll_cons_of_next {i : Instr} {is : List Instr} {s t : State} (h : exec i s = .next t) :
    execAll (i :: is) s = execAll is t := by
  rw [execAll, h]

theorem execAll_append_of_next {is js : List Instr} {s t : State} (h : execAll is s = .next t) :
    execAll (is ++ js) s = execAll js t := by
  induction is generalizing s with
  | nil => cases h; rfl
  | cons i is ih =>
    cases hi : exec i s with
    | next u =>
      rw [List.cons_append, execAll_cons_of_next hi]
      exact ih ((execAll_cons_of_next hi).symm.trans h)
    | fault r => rw [execAll, hi] at h; cases h
    | refused r => rw [execAll, hi] at h; cases h

/-- Writes one after another append the bits of all their fields. -/
theorem execAll_bswWrites (fs : List (Nat × Nat)) (s : State) :
    execAll (fs.map fun f => .bswWrite f.1 f.2) s =
      .next { s with bswBits := s.bswBits ++ Laws.fieldListBits fs } := by
  induction fs generalizing s with
  | nil => simp [execAll]
  | cons f fs ih =>
    rw [List.map_cons, execAll_cons_of_next (exec_bswWrite f.1 f.2 s), ih, Laws.fieldListBits_cons,
      ← List.append_assoc]
    rfl

/-- Reads that stay inside the input move the cursor by their widths and leave the input as it is. -/
theorem execAll_bsrReads {fs : List (Nat × Nat)} {s : State}
    (h : s.bsrPos + (fs.map Prod.snd).sum ≤ 8 * s.inp.length) :
    ∃ t, execAll (fs.map fun g => .bsrRead g.2) s = .next t ∧ t.inp = s.inp ∧
      t.bsrPos = s.bsrPos + (fs.map Prod.snd).sum := by
  induction fs generalizing s with
  | nil => exact ⟨s, rfl, rfl, rfl⟩
  | cons f fs ih =>
    rw [List.map_cons, List.sum_cons, ← Nat.add_assoc] at h
    rw [List.map_cons, List.map_cons, List.sum_cons, ← Nat.add_assoc,
      execAll_cons_of_next (exec_bsrRead_value (Nat.le_of_add_right_le h))]
    exact ih h

/-- One more read, of any width, after the fields of a list are read from the start of a stream that holds them. -/
theorem execAll_bsrReads_then {fs : List (Nat × Nat)} {s : State} {rest : Bits} (hpos : s.bsrPos = 0)
    (hs : streamBits s.inp = Laws.fieldListBits fs ++ rest) :
    ∃ u, u.inp = s.inp ∧ u.bsrPos = (Laws.fieldListBits fs).length ∧
      ∀ n t, exec (.bsrRead n) u = .next t →
        execAll (fs.map (fun g => .bsrRead g.2) ++ [.bsrRead n]) s = .next t := by
  have hlen := congrArg List.length hs
  rw [Laws.streamBits_length, List.length_append, Laws.fieldListBits_length] at hlen
  obtain ⟨u, hread, hinp, hcursor⟩ := execAll_bsrReads (fs := fs) (s := s) (by omega)
  refine ⟨u, hinp, by rw [hcursor, hpos, Nat.zero_add, Laws.fieldListBits_length], fun n t ht => ?_⟩
  rw [execAll_append_of_next hread, execAll_cons_of_next ht, execAll]

/-- A field of a list is read back, truncated to its width, after the fields before it (40_bitstream.md R109). -/
theorem execAll_bsrReads_field {xs ys : List (Nat × Nat)} {f : Nat × Nat} {s : State} {rest : Bits}
    (hpos : s.bsrPos = 0) (hs : streamBits s.inp = Laws.fieldListBits (xs ++ f :: ys) ++ rest) :
    ∃ t, execAll ((xs ++ [f]).map fun g => .bsrRead g.2) s = .next t ∧ t.ret = .field (some (f.1 % 2 ^ f.2)) ∧
      t.bsrPos = ((xs ++ [f]).map Prod.snd).sum := by
  rw [Laws.fieldListBits_append, Laws.fieldListBits_cons, List.append_assoc, List.append_assoc] at hs
  obtain ⟨u, hinp, hcursor, hthen⟩ := execAll_bsrReads_then hpos hs
  rw [← hinp, ← List.append_assoc] at hs
  have hread := exec_bsrRead_at hs hcursor (Laws.fieldBits_length f.2 f.1)
  rw [Laws.bitsValue_fieldBits] at hread
  exact ⟨_, by rw [List.map_append]; exact hthen _ _ hread, rfl, by simp⟩

/-- After all the fields only zero bits are left: a read that fits in them gives 0, a wider one EOS. -/
theorem execAll_bsrReads_padding {fs : List (Nat × Nat)} {s : State} {pad : Nat} (hpos : s.bsrPos = 0)
    (hs : streamBits s.inp = Laws.fieldListBits fs ++ List.replicate pad false) (w : Nat) :
    ∃ t, execAll (fs.map (fun g => .bsrRead g.2) ++ [.bsrRead w]) s = .next t ∧
      t.ret = .field (if w ≤ pad then some 0 else none) := by
  obtain ⟨u, hinp, hcursor, hthen⟩ := execAll_bsrReads_then hpos hs
  rw [← hinp] at hs
  by_cases hw : w ≤ pad
  · have hsplit : streamBits u.inp =
        Laws.fieldListBits fs ++ List.replicate w false ++ List.replicate (pad - w) false := by
      rw [hs, List.append_assoc, List.replicate_append_replicate, Nat.add_sub_cancel' hw]
    have hread := exec_bsrRead_at hsplit hcursor List.length_replicate
    rw [Laws.bitsValue_zeros] at hread
    exact ⟨_, hthen w _ hread, by rw [if_pos hw]⟩
  · have hlen := congrArg List.length hs
    rw [Laws.streamBits_length, List.length_append, List.length_replicate] at hlen
    exact ⟨_, hthen w _ (exec_bsrRead_eos (by omega)), by rw [if_neg hw]⟩

/-- Settles O14: the stream of the packed bytes is the fields' bits and the padding, and the reads follow it. -/
theorem writtenFieldsReadBack : Obligations.WrittenFieldsReadBack := by
  intro fs s u hempty hpos
  refine ⟨_, execAll_bswWrites fs s, fun hinp => ?_⟩
  have hstream : streamBits u.inp =
      Laws.fieldListBits fs ++ List.replicate (padCount (fs.map Prod.snd).sum) false := by
    rw [hinp, hempty, List.nil_append, Laws.streamBits_packBytes, padBits, Laws.fieldListBits_length]
  refine ⟨fun xs f ys hfs => ?_, execAll_bsrReads_padding hpos hstream⟩
  rw [hfs] at hstream
  exact execAll_bsrReads_field hpos hstream

end Sys2Proof.Machine
end

section
/-! The encoder (41_encoder.md R121 to R135): what the search chooses and what follows for its match under a legal
configuration and under INCLUSIVE, what emitting each token answers, the token of a step, and the output at DONE. -/

namespace Sys2Proof.Machine

/-! ### The search -/

theorem longestCandidate_le_input (s : State) : longestCandidate s ≤ s.inp.length - s.ip := Nat.min_le_right _ _

/-- The search takes the longest candidate length that yields an accepted match (41_encoder.md R126). -/
theorem search_eq_some {s : State} {p len : Nat} : search s = some (p, len) ↔
    s.cfg.m ≤ len ∧ len ≤ longestCandidate s ∧ tryLength s len = some (p, len) ∧
      ∀ len', len < len' → len' ≤ longestCandidate s → tryLength s len' = none := by
  rw [search, searchDown_eq_some]
  constructor
  · rintro ⟨j, hj, htaken, hlonger⟩
    have hmax : s.cfg.m + j ≤ longestCandidate s := by omega
    obtain ⟨rfl, -⟩ := (tryLength_eq_some (hmax.trans (longestCandidate_le_input s))).mp htaken
    refine ⟨Nat.le_add_right _ _, hmax, htaken, fun len' hlt hle => ?_⟩
    have hnone := hlonger (len' - s.cfg.m) (by omega) (by omega)
    rwa [Nat.add_sub_cancel' (by omega)] at hnone
  · rintro ⟨hmin, hmax, htaken, hlonger⟩
    refine ⟨len - s.cfg.m, by omega, by rwa [Nat.add_sub_cancel' hmin], fun j hlt hj => ?_⟩
    exact hlonger _ (by omega) (by omega)

theorem search_eq_none {s : State} : search s = none ↔
    ∀ len, s.cfg.m ≤ len → len ≤ longestCandidate s → tryLength s len = none := by
  rw [search, searchDown_eq_none]
  constructor
  · intro hnone len hmin hmax
    have htry := hnone (len - s.cfg.m) (by omega)
    rwa [Nat.add_sub_cancel' hmin] at htry
  · exact fun hnone j hj => hnone _ (Nat.le_add_right _ _) (by omega)

/-- Settles O31: the loop over candidate lengths, with each candidate's answer spelled out by `tryLength`'s laws. -/
theorem searchReturnsLongestAcceptedFirstOccurrence : Obligations.SearchReturnsLongestAcceptedFirstOccurrence := by
  intro s
  have hinput {len : Nat} (h : len ≤ longestCandidate s) : len ≤ s.inp.length - s.ip :=
    h.trans (longestCandidate_le_input s)
  refine ⟨fun p len => ?_, ?_⟩
  · rw [search_eq_some]
    refine and_congr_right fun _ => and_congr_right fun hmax => ?_
    rw [tryLength_eq_some (hinput hmax), eq_self, true_and, and_assoc]
    refine and_congr_right fun _ => and_congr_right fun _ => ?_
    exact forall_congr' fun len' => forall_congr' fun _ => forall_congr' fun hle => tryLength_eq_none (hinput hle)
  · rw [search_eq_none]
    exact forall_congr' fun len => forall_congr' fun _ => forall_congr' fun hle => tryLength_eq_none (hinput hle)

/-! ### The match the search found -/

/-- Under `R = 1` and INCLUSIVE the search finds nothing that reaches the write cursor (41_encoder.md R135). -/
theorem search_below_cursor {s : State} {p len : Nat} (hr : s.cfg.r = 1#1) (he : s.par.reuseEnd = .inclusive)
    (hm : 1 ≤ s.cfg.m) (h : search s = some (p, len)) : p + len ≤ s.w := by
  obtain ⟨hmin, -, -, ⟨⟨hfit, -⟩, -⟩, haccepted⟩ := search_some h
  exact (accepted_inclusive hr he (hm.trans hmin) hfit).mp haccepted

theorem nextToken_lit {s : State} {b : Byte} (hs : search s = none) (hb : s.inp[s.ip]? = some b) :
    nextToken s = some (.lit b) := by
  simp [nextToken, hs, hb]

theorem nextToken_match {s : State} {p len : Nat} (hs : search s = some (p, len)) :
    nextToken s = some (.matchRef p (len - s.cfg.m)) := by
  simp [nextToken, hs]

/-- Settles O33: ACCEPT's test of the end position is the bound by `W`, which a match of `M` bytes or more cannot meet
at `W = 0`. -/
theorem inclusiveMatchLiesBelowCursor : Obligations.InclusiveMatchLiesBelowCursor := by
  intro s hr he hm
  refine ⟨fun p len hlen hoccurs => acceptMatch_iff.trans (accepted_inclusive hr he hlen hoccurs.1),
    fun p len => search_below_cursor hr he hm, fun hw => ?_⟩
  have hnone : search s = none := by
    refine Option.eq_none_iff_forall_ne_some.mpr fun (p, len) h => ?_
    have hbelow := search_below_cursor hr he hm h
    obtain ⟨hmin, -⟩ := search_some h
    omega
  exact ⟨hnone, fun b => nextToken_lit hnone⟩

/-- Settles O34: the match lies in the dictionary and is no longer than CAP, half the length field's range. -/
theorem encoderFieldsFit : Obligations.EncoderFieldsFit := by
  intro s p len hlegal h
  obtain ⟨-, -, hm, -⟩ := legal_ranges hlegal
  obtain ⟨hmin, hcap, hinput, ⟨⟨hfit, -⟩, -⟩, -⟩ := search_some h
  have hend : p + len ≤ 2 ^ s.cfg.p := hfit
  have hpos : p < 2 ^ s.cfg.p := by omega
  have hcapField : 2 ^ (s.cfg.l - 1) ≤ 2 ^ s.cfg.l := Nat.pow_le_pow_right Nat.two_pos (Nat.sub_le _ _)
  have hlenf : len - s.cfg.m < 2 ^ s.cfg.l := by omega
  exact ⟨hend, hpos, hmin, hcap, hinput, Nat.sub_le_sub_right hcap _, hlenf, wellFormed_matchRef.mpr ⟨hpos, hlenf⟩⟩

/-! ### Emitting a token -/

theorem flagBits_lit : fieldBits 1 1 = [true] := rfl

theorem flagBits_match : fieldBits 1 0 = [false] := rfl

theorem outputFits_emittedLit {b : Byte} {s : State} (h : s.status.op = .encode) :
    outputFits (emittedLit b s) = withinBound s.par.outMax ((s.bswBits.length + 9 + 7) / 8) := by
  rw [outputFits_encode (by simpa using h)]
  simp

theorem outputFits_emittedMatch {pos lenf : Nat} {s : State} (h : s.status.op = .encode) :
    outputFits (emittedMatch pos lenf s) =
      withinBound s.par.outMax ((s.bswBits.length + (1 + s.cfg.p + s.cfg.l) + 7) / 8) := by
  rw [outputFits_encode (by simpa using h)]
  simp [Nat.add_assoc]

/-- Settles O26: the token fits OUT_MAX, so it answers what ENC.MATCH's loop gives in one go. -/
theorem matchEmittedWritesAndStores : Obligations.MatchEmittedWritesAndStores := by
  intro pos lenf s hrun hpos hlenf hinput hw hout
  have hfits : outputFits (emittedMatch pos lenf s) = true := (outputFits_emittedMatch hrun.2).trans hout
  rw [execMatchRef_encode_eq hrun hpos hlenf hinput fun _ => hw, endToken_fits hfits,
    emittedMatch_eq hpos hinput fun _ => hw]
  simp [flagBits_match, reuse_iff, matchLength]

/-- Settles O23: the token fits OUT_MAX, so it answers ENC.LIT's effect, whose one store reads back at `W`. -/
theorem litEmittedWritesAndStores : Obligations.LitEmittedWritesAndStores := by
  intro b s hrun hb hw hwf hout
  have hfits : outputFits (emittedLit b s) = true := (outputFits_emittedLit hrun.2).trans hout
  refine ⟨emittedLit b s, ?_, ?_, fun j => Memory.read_write hwf s.w j b⟩
  · rw [execLit_encode_eq hrun hb hw, endToken_fits hfits]
  · simp [emittedLit, storeAtCursor, writeBits, flagBits_lit, cursorNext, dictSize]

/-! ### The step -/

theorem step_encode {s : State} (hq : s.HostQuiet) (hrun : s.Running .encode) : step s = encStep s.afterPause :=
  (step_quiet hq).trans (blockStep_encode hrun)

theorem step_encode_token {s : State} {i : Instr} (hq : s.HostQuiet) (hrun : s.Running .encode)
    (hip : s.ip < s.inp.length) (hi : nextToken s.afterPause = some i) : step s = exec i s.afterPause :=
  (step_encode hq hrun).trans (encStep_token hip.ne hi)

/-- Settles O37: ENC.STEP's test for the input's end, and the token chosen where it fails. -/
theorem stepEmitsOneTokenOrEnds : Obligations.StepEmitsOneTokenOrEnds := by
  intro s hq hrun
  refine ⟨fun hend => ?_, fun hip => ⟨fun p len hs => ?_, fun hs => ?_⟩⟩
  · rw [step_encode hq hrun, encStep_end (s := s.afterPause) hend, stop, statusStopped, afterPause_status, hrun.2]
  · exact step_encode_token hq hrun hip (nextToken_match ((search_afterPause s).trans hs))
  · have hb : s.inp[s.ip]? = some s.inp[s.ip] := List.getElem?_eq_getElem hip
    exact ⟨_, hb, step_encode_token hq hrun hip (nextToken_lit ((search_afterPause s).trans hs) hb)⟩

/-! ### The output at DONE -/

theorem exec_outRead_done {s : State} (h : s.status.state = .done) :
    exec .outRead s = .next { s with ret := .bytes (outputOf s) } :=
  if_pos h

theorem exec_outRead_notDone {s : State} (h : s.status.state ≠ .done) : exec .outRead s = .refused .outputNotReady :=
  if_neg h

/-- Settles O21: OUT_READ at DONE hands over the output buffer of the operation that ended. -/
theorem outReadReturnsTheOutput : Obligations.OutReadReturnsTheOutput := fun _ =>
  ⟨fun hdone hop => by rw [exec_outRead_done hdone, outputOf_encode hop],
    fun hdone hop => by rw [exec_outRead_done hdone, outputOf_decode hop], exec_outRead_notDone⟩

end Sys2Proof.Machine
end

section
/-! The decoder (42_decoder.md R154, R155, R162): what a MATCH copies without reuse, and a decoder that executes the tokens
an encoder emits and so keeps the encoder's window and the input the encoder has consumed. -/

namespace Sys2Proof.Machine

/-! ### MATCH without reuse -/

theorem reuse_eq_false {c : Cfg} (h : c.r = 0#1) : reuse c = false := by
  simp [reuse, h]

/-- Without reuse DEC.COPY reads the old dictionary throughout and stores nothing (42_decoder.md R155). -/
theorem copyMatch_noReuse {pos len : Nat} {s : State} (hr : reuse s.cfg = false) (hpos : pos < dictSize s.cfg) :
    copyMatch pos len s = { s with
      q := wrapAt s.cfg pos len
      out := s.out ++ (List.range len).map fun k => s.dict.read (wrapAt s.cfg pos k) } := by
  rw [copyMatch_eq pos len s hpos (by simp [hr]), copiedBytes_off hr len pos s.w s.dict hpos]
  simp [hr]

theorem outputFits_copyMatch {pos len : Nat} {s : State} (hop : s.status.op = .decode) (hpos : pos < dictSize s.cfg)
    (hw : reuse s.cfg = true → s.w < dictSize s.cfg) :
    outputFits (copyMatch pos len s) = withinBound s.par.outMax (s.out.length + len) := by
  rw [outputFits_decode (by simpa using hop), copyMatch_par, copyMatch_eq pos len s hpos hw]
  simp

/-- Settles O24: the copy's bytes are all read from the dictionary as it was, and the token fits OUT_MAX. -/
theorem matchDecodedWithoutReuseCopies : Obligations.MatchDecodedWithoutReuseCopies := by
  intro pos lenf s hrun hr hpos hlenf hout
  have hoff := reuse_eq_false hr
  have hcursor : reuse s.cfg = true → s.w < dictSize s.cfg := by simp [hoff]
  have hfits : outputFits (copyMatch pos (matchLength s.cfg lenf) s) = true :=
    (outputFits_copyMatch hrun.2 hpos hcursor).trans hout
  rw [execMatchRef_decode_eq hrun hpos hlenf hcursor, endToken_fits hfits, copyMatch_noReuse hoff hpos, matchLength]

/-! ### Both loops over a match the search found -/

theorem needle_search_length {s : State} {p len : Nat} (h : search s = some (p, len)) : (needle s len).length = len := by
  obtain ⟨-, -, hinput, -⟩ := search_some h
  exact needle_length hinput

/-- Under INCLUSIVE the encoder's loop over a match the search found makes the reuse stores and no other change
(41_encoder.md R129, R130). -/
theorem emittedStores_search {s : State} {p len : Nat} (hm : 1 ≤ s.cfg.m) (he : s.par.reuseEnd = .inclusive)
    (hwf : s.dict.wf = true) (hw : s.w < dictSize s.cfg) (h : search s = some (p, len)) :
    emittedStores s.cfg p s.w (needle s len) s.dict =
      if reuse s.cfg then storedFrom s.cfg s.w (needle s len) s.dict else s.dict := by
  cases hr : reuse s.cfg with
  | false => exact emittedStores_noReuse hr p s.w _ s.dict hwf (search_holdsAt h)
  | true =>
    have hbelow := search_below_cursor (reuse_iff.mp hr) he hm h
    rw [← needle_search_length h] at hbelow
    exact emittedStores_reuse hr p s.w _ s.dict hwf (search_holdsAt h) hw (.inl hbelow)

/-- Under INCLUSIVE the decoder's loop over a match the search found, in the encoder's window, copies the needle. -/
theorem copiedBytes_search {s : State} {p len : Nat} (hm : 1 ≤ s.cfg.m) (he : s.par.reuseEnd = .inclusive)
    (hw : s.w < dictSize s.cfg) (h : search s = some (p, len)) :
    copiedBytes s.cfg len p s.w s.dict = needle s len := by
  have hlen := needle_search_length h
  have hholds : HoldsAt s.cfg s.dict p (needle s len) := search_holdsAt h
  cases hr : reuse s.cfg with
  | false => simpa only [hlen] using copiedBytes_noReuse hr p s.w _ s.dict hholds
  | true =>
    have hbelow := search_below_cursor (reuse_iff.mp hr) he hm h
    rw [← hlen] at hbelow
    simpa only [hlen] using copiedBytes_reuse hr p s.w _ s.dict hholds hw (.inl hbelow)

/-! ### One token on both sides -/

/-- A running encoder of the runs of 42_decoder.md R162: legal, INCLUSIVE, no OUT_MAX, a host that leaves it alone. -/
structure EncoderReady (e : State) : Prop where
  running : e.Running .encode
  legal : legal e.par e.cfg = true
  inclusive : e.par.reuseEnd = .inclusive
  noBound : e.par.outMax = none
  noMoves : e.schedule = []
  dictCanonical : e.dict.wf = true
  cursor : e.w < dictSize e.cfg

/-- The running decoder `d` has the window of the encoder `e`, and as output the input bytes `e` has consumed. -/
structure DecoderTracks (e d : State) : Prop where
  running : d.Running .decode
  noBound : d.par.outMax = none
  cfg : d.cfg = e.cfg
  dict : d.dict = e.dict
  cursor : d.w = e.w
  out : d.out = e.inp.take e.ip

theorem EncoderReady.not_decoding {e : State} (he : EncoderReady e) : ¬ e.Running .decode := fun h => by
  simpa [he.running.2] using h.2

theorem EncoderReady.minMatch {e : State} (he : EncoderReady e) : 1 ≤ e.cfg.m := by
  obtain ⟨-, -, hm, -⟩ := legal_ranges he.legal
  exact hm

theorem EncoderReady.token {i : Instr} {e t : State} (he : EncoderReady e) (hi : nextToken e = some i)
    (h : exec i e = .next t) : EncoderReady t := by
  obtain ⟨⟨hcfg, -, hstatus, -, hpar, -, hschedule, -⟩, -, hwf, -, hw, -⟩ := token_next (isToken_of_next hi) h
  exact {
    running := by rw [State.Running, hstatus]; exact he.running
    legal := by rw [hpar, hcfg]; exact he.legal
    inclusive := by rw [hpar]; exact he.inclusive
    noBound := by rw [hpar]; exact he.noBound
    noMoves := hschedule.trans he.noMoves
    dictCanonical := hwf he.dictCanonical
    cursor := by rw [hcfg]; exact hw he.cursor }

theorem DecoderTracks.follow_lit {b : Byte} {e d t : State} (he : EncoderReady e) (hd : DecoderTracks e d)
    (h : exec (.lit b) e = .next t) : ∃ d', exec (.lit b) d = .next d' ∧ DecoderTracks t d' := by
  obtain ⟨hw, -, ⟨hdec, -⟩ | ⟨-, hb, rfl⟩⟩ := execLit_next h
  · exact absurd hdec he.not_decoding
  · refine ⟨decodedLit b d, ?_, ?_⟩
    · rw [execLit_decode_eq hd.running (by rw [hd.cursor, hd.cfg]; exact hw)]
      exact endToken_fits (outputFits_noBound hd.noBound)
    · exact {
        running := hd.running
        noBound := hd.noBound
        cfg := hd.cfg
        dict := by simp [hd.dict, hd.cursor]
        cursor := by simp [hd.cfg, hd.cursor]
        out := by simp [hd.out, List.take_add_one, hb] }

theorem DecoderTracks.exec_matchRef {p lenf : Nat} {e d : State} (hd : DecoderTracks e d) (hp : p < dictSize e.cfg)
    (hl : lenf < 2 ^ e.cfg.l) (hw : reuse e.cfg = true → e.w < dictSize e.cfg) :
    exec (.matchRef p lenf) d = .next (copyMatch p (matchLength e.cfg lenf) d) := by
  have hfits : outputFits (copyMatch p (matchLength e.cfg lenf) d) = true :=
    outputFits_noBound (by simpa using hd.noBound)
  rw [← hd.cfg] at hp hl hw hfits ⊢
  rw [execMatchRef_decode_eq hd.running hp hl (hd.cursor ▸ hw), endToken_fits hfits]

/-- ENC.MATCH's loop and DEC.COPY, over the match the encoder's search found, leave the same window. -/
theorem DecoderTracks.match_loops {p len : Nat} {e d : State} (he : EncoderReady e) (hd : DecoderTracks e d)
    (hs : search e = some (p, len)) (hp : p < dictSize e.cfg) (hlen : matchLength e.cfg (len - e.cfg.m) = len)
    (hinput : e.ip + matchLength e.cfg (len - e.cfg.m) ≤ e.inp.length) :
    DecoderTracks (emittedMatch p (len - e.cfg.m) e) (copyMatch p len d) := by
  have hemit := emittedMatch_eq hp hinput fun _ => he.cursor
  rw [hlen, ← needle, emittedStores_search he.minMatch he.inclusive he.dictCanonical he.cursor hs] at hemit
  have hcopy := copyMatch_eq p len d (hd.cfg ▸ hp) fun _ => by rw [hd.cfg, hd.cursor]; exact he.cursor
  rw [hd.cfg, hd.dict, hd.cursor, copiedBytes_search he.minMatch he.inclusive he.cursor hs] at hcopy
  rw [hcopy, hemit]
  exact {
    running := hd.running
    noBound := hd.noBound
    cfg := rfl
    dict := rfl
    cursor := rfl
    out := by simp [hd.out, List.take_add, needle] }

theorem DecoderTracks.follow_match {p len : Nat} {e d t : State} (he : EncoderReady e) (hd : DecoderTracks e d)
    (hs : search e = some (p, len)) (h : exec (.matchRef p (len - e.cfg.m)) e = .next t) :
    ∃ d', exec (.matchRef p (len - e.cfg.m)) d = .next d' ∧ DecoderTracks t d' := by
  obtain ⟨hp, hl, hw, -, ⟨hdec, -⟩ | ⟨-, hinput, rfl⟩⟩ := execMatchRef_next h
  · exact absurd hdec he.not_decoding
  · obtain ⟨hmin, -⟩ := search_some hs
    have hlen : matchLength e.cfg (len - e.cfg.m) = len := Nat.sub_add_cancel hmin
    exact ⟨copyMatch p len d, by rw [hd.exec_matchRef hp hl hw, hlen], hd.match_loops he hs hp hlen hinput⟩

/-- The token an encoder emits, executed by a decoder that tracks it: the decoder tracks it again (42_decoder.md R162). -/
theorem DecoderTracks.follow_token {i : Instr} {e d t : State} (he : EncoderReady e) (hd : DecoderTracks e d)
    (hi : nextToken e = some i) (h : exec i e = .next t) : ∃ d', exec i d = .next d' ∧ DecoderTracks t d' := by
  obtain ⟨p, len, hs, rfl⟩ | ⟨b, -, -, rfl⟩ := nextToken_cases hi
  · exact hd.follow_match he hs h
  · exact hd.follow_lit he h

/-- An encoder's token appends its encoding to the bits written (41_encoder.md R127, R128). -/
theorem EncoderReady.token_bswBits {i : Instr} {e t : State} (he : EncoderReady e) (hi : nextToken e = some i)
    (h : exec i e = .next t) : t.bswBits = e.bswBits ++ (encode e.cfg.p e.cfg.l i).getD [] := by
  obtain ⟨b, rfl⟩ | ⟨p, f, rfl⟩ := isToken_of_next hi
  · obtain ⟨-, -, ⟨hdec, -⟩ | ⟨-, -, rfl⟩⟩ := execLit_next h
    · exact absurd hdec he.not_decoding
    · simp [encode]
  · obtain ⟨-, -, -, -, ⟨hdec, -⟩ | ⟨-, -, rfl⟩⟩ := execMatchRef_next h
    · exact absurd hdec he.not_decoding
    · simp [encode]

/-! ### Any number of steps -/

/-- A step of such an encoder ends the operation or emits its next token. -/
theorem EncoderReady.step_next {e t : State} (he : EncoderReady e) (h : step e = .next t) :
    t = stop .inputEnd e ∨ ∃ i, nextToken e = some i ∧ exec i e = .next t := by
  rw [step_encode (hostQuiet_of_nil he.noMoves) he.running, afterPause_of_nil he.noMoves] at h
  obtain ⟨-, ht⟩ | ⟨-, hi⟩ := encStep_next h
  · exact .inl ht
  · exact .inr hi

theorem runSteps_succ_next {k : Nat} {s t : State} (h : runSteps (k + 1) s = .next t) :
    ∃ u, step s = .next u ∧ runSteps k u = .next t := by
  simp only [runSteps, Host.Core.run] at h
  split at h
  · rename_i u hstep
    exact ⟨u, hstep, h⟩
  · cases h
  · cases h

/-- With no move of the host left, an instance in which no operation runs stays as it is. -/
theorem runSteps_notBusy {s : State} (hb : s.status.state ≠ .busy) (hs : s.schedule = []) (k : Nat) :
    runSteps k s = .next s := by
  induction k with
  | zero => rfl
  | succ k ih =>
    have hstep : step s = .next s := by
      rw [step_quiet (hostQuiet_of_nil hs), afterPause_of_nil hs, blockStep_notBusy hb]
    rw [runSteps_succ hstep, ih]

/-- `k` steps of an encoder emit tokens, `k` of them if it still runs, and a decoder that tracks it executes them and
tracks it at the end. -/
theorem DecoderTracks.run_tokens {k : Nat} {e d t : State} (he : EncoderReady e) (hd : DecoderTracks e d)
    (h : runSteps k e = .next t) :
    ∃ is d', t.bswBits = e.bswBits ++ encodeAll e.cfg.p e.cfg.l is ∧ (t.status.state = .busy → is.length = k) ∧
      execAll is d = .next d' ∧ DecoderTracks t d' ∧ t.inp = e.inp := by
  induction k generalizing e d with
  | zero => cases h; exact ⟨[], d, by simp [encodeAll], fun _ => rfl, rfl, hd, rfl⟩
  | succ k ih =>
    obtain ⟨u, hstep, hrest⟩ := runSteps_succ_next h
    obtain rfl | ⟨i, hi, hx⟩ := he.step_next hstep
    · have hdone : (stop .inputEnd e).status.state ≠ .busy := by simp [statusStopped]
      rw [runSteps_notBusy hdone he.noMoves] at hrest
      cases hrest
      exact ⟨[], d, by simp [encodeAll], fun hb => absurd hb hdone, rfl,
        ⟨hd.running, hd.noBound, hd.cfg, hd.dict, hd.cursor, hd.out⟩, rfl⟩
    · obtain ⟨d₁, hx', hd₁⟩ := hd.follow_token he hi hx
      obtain ⟨is, d', hbits, hcount, hall, hd', hinp⟩ := ih (he.token hi hx) hd₁ hrest
      have hsame := token_sameConfigAndInput (isToken_of_next hi) hx
      refine ⟨i :: is, d', ?_, fun hb => congrArg (· + 1) (hcount hb), ?_, hd', hinp.trans hsame.inp⟩
      · rw [hbits, he.token_bswBits hi hx, hsame.cfg, Laws.encodeAll_cons, List.append_assoc]
      · rw [execAll_cons_of_next hx', hall]

theorem encoderReady_start {s : State} {x : List Byte} (hlegal : legal s.par s.cfg = true)
    (hinclusive : s.par.reuseEnd = .inclusive) (hbound : s.par.outMax = none) (hmoves : s.schedule = []) :
    EncoderReady (startOperation .encode x s) := by
  obtain ⟨-, -, -, -, hini, -⟩ := legal_ranges hlegal
  exact ⟨⟨rfl, rfl⟩, hlegal, hinclusive, hbound, hmoves, Memory.wf_nil, hini⟩

/-- Both STARTs give the empty dictionary, the cursor at `I` and no output (70_reset_and_hazards.md R221). -/
theorem decoderTracks_start {s : State} (x buf : List Byte) (hbound : s.par.outMax = none) :
    DecoderTracks (startOperation .encode x s) (startOperation .decode buf s) :=
  ⟨⟨rfl, rfl⟩, hbound, rfl, rfl, rfl, rfl⟩

/-- Settles O57: a decoder that tracks the encoder from START on executes each token the encoder emits. -/
theorem windowsAgreeAfterEveryToken : Obligations.WindowsAgreeAfterEveryToken := by
  intro s e x buf k _ hlegal hinclusive hbound hmoves hrun
  obtain ⟨is, d, hbits, hcount, hall, hd, hinp⟩ :=
    (decoderTracks_start x buf hbound).run_tokens (encoderReady_start hlegal hinclusive hbound hmoves) hrun
  have hout := hd.out
  rw [hinp] at hout
  exact ⟨is, d, hbits.symm, hcount, hall, hd.dict, hd.cursor, hout⟩

end Sys2Proof.Machine
end

section
/-! The host's interface (43_interface.md R171, R172, R177, R180): the transactions on the configuration and on STATUS, and
instances side by side. -/

namespace Sys2Proof.Machine

/-! ### The configuration and STATUS -/

theorem exec_cfgWrite_notBusy (p l m ini : Nat) (r : BitVec 1) {s : State} (hidle : s.status.state ≠ .busy) :
    exec (.cfgWrite p l m ini r) s =
      .next { s with cfg := { p := p, l := l, m := m, i := ini, r := r }, cfgValid := true } :=
  if_neg hidle

theorem exec_cfgWrite_busy (p l m ini : Nat) (r : BitVec 1) {s : State} (hb : s.status.state = .busy) :
    exec (.cfgWrite p l m ini r) s = .refused .cfgWriteWhileBusy :=
  if_pos hb

/-- Settles O15: CFG_WRITE's one test is the test for BUSY. -/
theorem cfgWriteSetsAllFiveFields : Obligations.CfgWriteSetsAllFiveFields :=
  fun p l m i r _ => ⟨exec_cfgWrite_notBusy p l m i r, exec_cfgWrite_busy p l m i r⟩

theorem exec_cfgRead_written {s : State} (hwritten : s.cfgValid = true) :
    exec .cfgRead s = .next (give (.cfg s.cfg) s) :=
  if_pos hwritten

theorem exec_cfgRead_unwritten {s : State} (hunwritten : s.cfgValid = false) :
    exec .cfgRead s = .refused .cfgUnwritten :=
  if_neg (Bool.eq_false_iff.mp hunwritten)

/-- Settles O16: CFG_READ's one test is CFG_VALID; STATUS is not looked at. -/
theorem cfgReadReturnsConfiguration : Obligations.CfgReadReturnsConfiguration :=
  fun _ => ⟨exec_cfgRead_written, exec_cfgRead_unwritten⟩

/-- Settles O20: STATUS_READ tests nothing and writes `ret` alone. -/
theorem statusReadReturnsStatus : Obligations.StatusReadReturnsStatus :=
  fun _ => rfl

/-! ### Instances side by side -/

theorem stepInstance_getElem?_same (i : Nat) (sys : System) : (stepInstance i sys)[i]? = (sys[i]?).map resume :=
  List.getElem?_modify_eq resume i sys

theorem stepInstance_getElem?_other {k i : Nat} (hki : k ≠ i) (sys : System) : (stepInstance k sys)[i]? = sys[i]? :=
  List.getElem?_modify_ne resume sys hki

/-- Settles O60: by induction on the order, a step of instance `i` counts for `i`, and a step of another leaves `i`
where it stands. -/
theorem instancesRunAsIfAlone : Obligations.InstancesRunAsIfAlone := by
  intro order sys i
  induction order generalizing sys with
  | nil => simp
  | cons k order ih =>
    rw [List.foldl_cons, ih]
    by_cases hki : k = i
    · subst hki
      rw [stepInstance_getElem?_same, Option.map_map, List.count_cons_self, Function.iterate_succ]
    · rw [stepInstance_getElem?_other hki, List.count_cons_of_ne hki]

end Sys2Proof.Machine
end

section
/-! Where an operation stops (60_exceptions.md R200, R203): the four ends of a DECODE, and what else can stop a step. -/

namespace Sys2Proof.Laws

/-! ### The reads that meet the end -/

theorem decodeBits_endInLiteral (P L : Nat) {s : Bits} {pos : Nat} (hflag : s[pos]? = some true)
    (hshort : s.length < pos + 9) : decodeBits P L s pos = .error .endInLiteral := by
  rw [decodeBits_flag_one P L s pos hflag, decodeLit, readField_end s (pos + 1) 8 (by omega)]

theorem decodeBits_endInPosition {P : Nat} (L : Nat) {s : Bits} {pos : Nat} (hflag : s[pos]? = some false)
    (hshort : s.length < pos + 1 + P) : decodeBits P L s pos = .error .endInPosition := by
  rw [decodeBits_flag_zero P L s pos hflag, decodeMatch, readField_end s (pos + 1) P hshort]

theorem decodeBits_endInLength {P L : Nat} {s : Bits} {pos : Nat} (hflag : s[pos]? = some false)
    (hposition : pos + 1 + P ≤ s.length) (hshort : s.length < pos + 1 + P + L) :
    decodeBits P L s pos = .error .endInLength := by
  simp only [decodeBits_flag_zero P L s pos hflag, decodeMatch, readField_value s (pos + 1) P hposition,
    readField_end s (pos + 1 + P) L hshort]

end Sys2Proof.Laws

namespace Sys2Proof.Machine

/-! ### The ends of a DECODE -/

theorem step_decode {s : State} (hq : s.HostQuiet) (hrun : s.Running .decode) : step s = decStep s.afterPause :=
  (step_quiet hq).trans (blockStep_decode hrun)

/-- A DECODE's step whose read meets the end moves the cursor to the end and STATUS to DONE (42_decoder.md R157). -/
theorem step_decode_end {s : State} {r : Reject} (hq : s.HostQuiet) (hrun : s.Running .decode)
    (hread : decodeBits s.cfg.p s.cfg.l (streamBits s.inp) s.bsrPos = .error r) :
    step s = .next { s.afterPause with
      bsrPos := 8 * s.inp.length, status := { state := .done, op := .decode, term := termOf r } } := by
  rw [step_decode hq hrun, decStep_end (s := s.afterPause) hread, ← hrun.2]
  rfl

/-- Settles O36: each clause's premises are the outcome of the reads up to the one that meets the end. -/
theorem firstReadPastTheEndStops : Obligations.FirstReadPastTheEndStops := by
  intro s hq hrun _
  have hlen : (streamBits s.inp).length = 8 * s.inp.length := Laws.streamBits_length s.inp
  refine ⟨fun hend => ?_, fun hflag hshort => ?_, fun hflag hshort => ?_, fun hflag hposition hshort => ?_⟩
  · exact step_decode_end hq hrun (Laws.decodeBits_flag_end _ _ _ _ (hlen.trans hend.symm).le)
  · exact step_decode_end hq hrun (Laws.decodeBits_endInLiteral _ _ hflag (hlen.trans_lt hshort))
  · exact step_decode_end hq hrun (Laws.decodeBits_endInPosition _ hflag (hlen.trans_lt hshort))
  · have hfits := hposition.trans_eq hlen.symm
    exact step_decode_end hq hrun (Laws.decodeBits_endInLength hflag hfits (hlen.trans_lt hshort))

/-! ### What can stop a step -/

/-- An outcome of a block step of `s` that only OUT_MAX can stop: a next state, or the end of a token, under the
parameters of `s`. -/
def StopsOnlyByOutMax (s : State) (o : Result) : Prop :=
  ∃ t, t.par = s.par ∧ (o = .next t ∨ o = endToken t)

theorem StopsOnlyByOutMax.ne_fault {s : State} {o : Result} (h : StopsOnlyByOutMax s o) (f : Fault) :
    o ≠ .fault f := by
  obtain ⟨t, -, rfl | rfl⟩ := h
  · simp
  · exact endToken_ne_fault f

theorem StopsOnlyByOutMax.refused {s : State} {r : Refusal} (h : StopsOnlyByOutMax s (.refused r)) :
    r = .outputTooLong ∧ s.par.outMax ≠ none := by
  obtain ⟨t, hpar, hnext | htoken⟩ := h
  · cases hnext
  · obtain ⟨hr, hfits⟩ := endToken_refused htoken.symm
    refine ⟨hr, fun hbound => ?_⟩
    rw [outputFits_noBound (hpar ▸ hbound)] at hfits
    cases hfits

/-- The literal or the match ENC.STEP chooses meets every test of its rule but that of OUT_MAX. -/
theorem exec_nextToken_stopsOnlyByOutMax {s : State} {i : Instr} (hrun : s.Running .encode)
    (hlegal : legal s.par s.cfg = true) (hw : s.w < dictSize s.cfg) (hip : s.ip ≤ s.inp.length)
    (hi : nextToken s = some i) : StopsOnlyByOutMax s (exec i s) := by
  obtain ⟨p, len, hs, rfl⟩ | ⟨b, -, hb, rfl⟩ := nextToken_cases hi
  · obtain ⟨-, hp, hmin, -, hinput, -, hlenf, -⟩ := encoderFieldsFit s p len hlegal hs
    have hend : s.ip + matchLength s.cfg (len - s.cfg.m) ≤ s.inp.length := by
      rw [matchLength]
      omega
    exact ⟨_, emittedMatch_par _ _ _, .inr (execMatchRef_encode_eq hrun hp hlenf hend fun _ => hw)⟩
  · exact ⟨_, emittedLit_par _ _, .inr (execLit_encode_eq hrun hb hw)⟩

theorem encStep_stopsOnlyByOutMax {s : State} (hrun : s.Running .encode) (hlegal : legal s.par s.cfg = true)
    (hw : s.w < dictSize s.cfg) (hip : s.ip ≤ s.inp.length) : StopsOnlyByOutMax s (encStep s) := by
  by_cases hend : s.ip = s.inp.length
  · exact ⟨_, stop_par _ _, .inl (encStep_end hend)⟩
  · obtain ⟨i, hi⟩ := nextToken_of_lt (lt_of_le_of_ne hip hend)
    rw [encStep_token hend hi]
    exact exec_nextToken_stopsOnlyByOutMax hrun hlegal hw hip hi

theorem decStep_stopsOnlyByOutMax {s : State} (hrun : s.Running .decode) (hw : s.w < dictSize s.cfg) :
    StopsOnlyByOutMax s (decStep s) := by
  cases hread : fetchToken s with
  | error r => exact ⟨_, stopAtEnd_par r s, .inl (decStep_end hread)⟩
  | ok token =>
    obtain ⟨i, pos'⟩ := token
    rw [decStep_token hread]
    obtain ⟨-, ⟨b, rfl, -⟩ | ⟨p, f, rfl, hp, hf, -⟩⟩ := fetchToken_ok hread
    · exact ⟨_, decodedLit_par b { s with bsrPos := pos' }, .inr (execLit_decode_eq hrun hw)⟩
    · exact ⟨_, copyMatch_par p (matchLength s.cfg f) { s with bsrPos := pos' },
        .inr (execMatchRef_decode_eq hrun hp hf fun _ => hw)⟩

/-- From a state of the invariant a step that the host leaves to the block is stopped by OUT_MAX or not at all. -/
theorem step_stopsOnlyByOutMax {s : State} (hinv : s.Inv) (hq : s.HostQuiet) : StopsOnlyByOutMax s (step s) := by
  by_cases hb : s.status.state = .busy
  · have hw := hinv.busyCursor hb
    obtain ⟨hsome, -⟩ := hinv.busyStatus hb
    cases hop : s.status.op with
    | none => exact absurd hop hsome
    | encode =>
      rw [step_encode hq ⟨hb, hop⟩]
      exact encStep_stopsOnlyByOutMax (s := s.afterPause) ⟨hb, hop⟩ (hinv.busyConfig hb) hw hinv.inputPosition
    | decode =>
      rw [step_decode hq ⟨hb, hop⟩]
      exact decStep_stopsOnlyByOutMax (s := s.afterPause) ⟨hb, hop⟩ hw
  · exact ⟨_, afterPause_par s, .inl ((step_quiet hq).trans (blockStep_notBusy hb))⟩

/-- Settles O45: a transaction never faults and is refused by its own rule alone; the block's own step stops only by
OUT_MAX. -/
theorem onlyTheSpecsRefusalsStop : Obligations.OnlyTheSpecsRefusalsStop := by
  intro s hinv
  obtain hq | ⟨op, rest, hs⟩ := hostQuiet_or_transact s
  · have hstep := step_stopsOnlyByOutMax hinv hq
    refine ⟨hstep.ne_fault, fun r hr => ?_⟩
    obtain ⟨hr, hbound⟩ := (hr ▸ hstep).refused
    exact .inr (.inr (.inr (.inr (.inr (.inr ⟨hr, hq, hbound⟩)))))
  · rw [step_transact hs]
    refine ⟨hostOp_ne_fault op _, fun r hr => ?_⟩
    have hcause := hostOp_refused hr
    tauto

end Sys2Proof.Machine
end

section
/-! Reset and START (70_reset_and_hazards.md R220, R221), and the window of each side without reuse (R228). -/

namespace Sys2Proof.Machine

/-! ### A match without reuse -/

/-- Under `R = 0` DEC.COPY stores nothing (42_decoder.md R155). -/
theorem copyMatch_window_noReuse {pos len : Nat} {s : State} (hr : reuse s.cfg = false) (hpos : pos < dictSize s.cfg) :
    (copyMatch pos len s).dict = s.dict ∧ (copyMatch pos len s).w = s.w := by
  rw [copyMatch_noReuse hr hpos]
  exact ⟨rfl, rfl⟩

/-- Under `R = 0` ENC.MATCH's loop over a match the search found writes back what the dictionary holds and does not move
`W` (41_encoder.md R129). -/
theorem emittedMatch_window_noReuse {p len : Nat} {s : State} (hr : reuse s.cfg = false) (hwf : s.dict.wf = true)
    (hs : search s = some (p, len)) (hp : p < dictSize s.cfg)
    (hinput : s.ip + matchLength s.cfg (len - s.cfg.m) ≤ s.inp.length) :
    (emittedMatch p (len - s.cfg.m) s).dict = s.dict ∧ (emittedMatch p (len - s.cfg.m) s).w = s.w := by
  obtain ⟨hmin, -⟩ := search_some hs
  have hlen : matchLength s.cfg (len - s.cfg.m) = len := Nat.sub_add_cancel hmin
  rw [emittedMatch_eq hp hinput (by simp [hr]), hlen]
  exact ⟨emittedStores_noReuse hr p s.w _ s.dict hwf (search_holdsAt hs), by simp [hr]⟩

/-- Under `R = 0` an ENC.STEP whose search found a match stops or emits that match. -/
theorem encStep_window_noReuse {s t : State} (hr : reuse s.cfg = false) (hwf : s.dict.wf = true)
    (hrun : s.Running .encode) (hs : search s ≠ none) (h : encStep s = .next t) : t.dict = s.dict ∧ t.w = s.w := by
  obtain ⟨-, rfl⟩ | ⟨-, i, hi, hx⟩ := encStep_next h
  · exact ⟨stop_dict _ _, stop_w _ _⟩
  · obtain ⟨p, len, hfound, rfl⟩ | ⟨-, hnone, -⟩ := nextToken_cases hi
    · obtain ⟨hp, -, -, -, ⟨⟨-, hdecode⟩, -⟩ | ⟨-, hinput, rfl⟩⟩ := execMatchRef_next hx
      · simp [hrun.2] at hdecode
      · exact emittedMatch_window_noReuse hr hwf hfound hp hinput
    · exact absurd hnone hs

/-- Under `R = 0` a DEC.STEP that reads no LIT stops, or copies a match to the output alone. -/
theorem decStep_window_noReuse {s t : State} (hr : reuse s.cfg = false) (hrun : s.Running .decode)
    (hread : ∀ b pos', fetchToken s ≠ .ok (.lit b, pos')) (h : decStep s = .next t) :
    t.dict = s.dict ∧ t.w = s.w := by
  obtain ⟨r, -, rfl⟩ | ⟨i, pos', hi, hx⟩ := decStep_next h
  · exact ⟨stopAtEnd_dict _ _, stopAtEnd_w _ _⟩
  · obtain ⟨b, rfl⟩ | ⟨p, f, rfl⟩ := isToken_of_fetch hi
    · exact absurd hi (hread b pos')
    · obtain ⟨hp, -, -, -, ⟨-, rfl⟩ | ⟨⟨-, hencode⟩, -⟩⟩ := execMatchRef_next hx
      · exact copyMatch_window_noReuse (s := { s with bsrPos := pos' }) hr hp
      · simp [hrun.2] at hencode

/-- Settles O41: the decoder's copy stores nothing, and the encoder's write-back stores what is there. -/
theorem matchWithoutReuseLeavesTheWindow : Obligations.MatchWithoutReuseLeavesTheWindow := by
  intro s t hq hinv hr0 h
  have hr := reuse_eq_false hr0
  refine ⟨fun hrun hread => ?_, fun hrun hs => ?_⟩
  · exact decStep_window_noReuse (s := s.afterPause) hr hrun hread ((step_decode hq hrun).symm.trans h)
  · exact encStep_window_noReuse (s := s.afterPause) hr hinv.dictCanonical hrun (by rwa [search_afterPause])
      ((step_encode hq hrun).symm.trans h)

/-! ### START and reset -/

/-- Settles O17: no refusal applies, so both STARTs initialise; the dictionary is the empty list of cells, and `Q` keeps
its value. -/
theorem startInitialisesTheOperation : Obligations.StartInitialisesTheOperation := by
  intro buf s hidle hwritten hlegal hbound
  have hstart (op : Op) : start op buf s = .next (startOperation op buf s) :=
    start_goesAhead hidle hwritten hlegal (withinBound_iff.mpr hbound)
  exact ⟨[], s.q, Memory.read_nil, Memory.wf_nil, hstart .encode, hstart .decode⟩

/-- Settles O42: CFG_VALID is 0 and STATE is IDLE, which refuses both reads and leaves the block nothing to do. -/
theorem resetLeavesIdleAndUnconfigured : Obligations.ResetLeavesIdleAndUnconfigured := by
  have hbusy : State.reset.status.state ≠ .busy := by decide
  refine ⟨rfl, rfl, exec_cfgRead_unwritten rfl, exec_outRead_notDone (by decide), ?_⟩
  rw [step_quiet (hostQuiet_of_nil rfl), afterPause_of_nil rfl, blockStep_notBusy hbusy]

end Sys2Proof.Machine
end

section
/-! Encoding and decoding (30_encoding.md R71 to R80, 42_decoder.md R160): the two directions of the round trip, the
listing forms, and what a run of zero bits reads as. -/

namespace Sys2Proof.Laws

/-! ### From an instruction to its bits and back -/

/-- A token's bits are read back as the token wherever they stand (30_encoding.md R71, R72). -/
theorem decodeBits_at_encode {P L : Nat} {i : Instr} {bits : Bits} (hwf : wellFormed P L i = true)
    (hbits : encode P L i = some bits) (before after : Bits) :
    decodeBits P L (before ++ bits ++ after) before.length = .ok (i, before.length + bits.length) := by
  cases i with
  | lit b =>
    cases hbits
    simpa using decodeBits_lit_at P L before after b
  | matchRef pos lenf =>
    obtain ⟨hpos, hlenf⟩ := Machine.wellFormed_matchRef.mp hwf
    cases hbits
    simpa [Nat.add_assoc] using decodeBits_match_at P L before after pos lenf hpos hlenf
  | _ => cases hbits

/-- The padding stands after every bit that was packed. -/
theorem streamBits_packBytes_append (before bits after : Bits) :
    ∃ pad, streamBits (packBytes (before ++ bits ++ after)) = before ++ bits ++ pad := by
  refine ⟨after ++ List.replicate (padCount (before ++ bits ++ after).length) false, ?_⟩
  rw [streamBits_packBytes, padBits, List.append_assoc _ after]

/-- Settles O1: the two reads of a token's bits, and in the packed bytes only more bits follow. -/
theorem encodedTokenDecodesToItself : Obligations.EncodedTokenDecodesToItself := by
  intro P L i bits before after hwf hbits
  obtain ⟨pad, hpacked⟩ := streamBits_packBytes_append before bits after
  refine ⟨decodeBits_at_encode hwf hbits before after, ?_⟩
  rw [decode, hpacked]
  exact decodeBits_at_encode hwf hbits before pad

/-! ### From the bits read back to the instruction -/

theorem fieldBits_fieldValue {s : Bits} {pos n : Nat} (h : pos + n ≤ s.length) :
    fieldBits n (bitsValue ((s.drop pos).take n)) = (s.drop pos).take n := by
  simpa only [drop_take_length s pos n h] using fieldBits_bitsValue ((s.drop pos).take n)

/-- Stream bits from a flag on: the flag, then the rest of the token. -/
theorem drop_take_flag {s : Bits} {pos n : Nat} {flag : Bool} (h : s[pos]? = some flag) :
    (s.drop pos).take (1 + n) = flag :: (s.drop (pos + 1)).take n := by
  obtain ⟨hlt, rfl⟩ := List.getElem?_eq_some_iff.mp h
  rw [List.drop_eq_getElem_cons hlt, Nat.add_comm 1 n, List.take_succ_cons]

/-- Settles O2: of the outcomes of a read, the two that answer an instruction give operands whose bits are the fields
read. -/
theorem decodedTokenReencodesToTheBitsRead : Obligations.DecodedTokenReencodesToTheBitsRead := by
  intro P L s pos i pos' h
  obtain ⟨-, e⟩ | ⟨-, -, e⟩ | ⟨hflag, hfit, e⟩ | ⟨-, -, e⟩ | ⟨-, -, -, e⟩ | ⟨hflag, hfit, e⟩ :=
    decodeBits_cases P L s pos <;> cases h.symm.trans e
  · have hfield : pos + 1 + 8 ≤ s.length := hfit
    have hvalue := fieldValue_lt hfield
    refine ⟨by omega, hfit, rfl, ?_⟩
    rw [Nat.add_sub_cancel_left, drop_take_flag (n := 8) hflag, encode, BitVec.toNat_ofNat, Nat.mod_eq_of_lt hvalue,
      fieldBits_fieldValue hfield]
    rfl
  · have hposition : pos + 1 + P ≤ s.length := by omega
    have hwidth : pos + 1 + P + L - pos = 1 + (P + L) := by omega
    refine ⟨by omega, hfit, Machine.wellFormed_matchRef.mpr ⟨fieldValue_lt hposition, fieldValue_lt hfit⟩, ?_⟩
    rw [hwidth, drop_take_flag hflag, List.take_add, List.drop_drop, encode, fieldBits_fieldValue hposition,
      fieldBits_fieldValue hfit]
    rfl

/-! ### Zero bits -/

/-- A field of zero bits is 0. -/
theorem fieldValue_zeros {s : Bits} {pos idx : Nat} (hzero : ∀ k, pos ≤ k → k < s.length → s[k]? = some false)
    (h : pos ≤ idx) (n : Nat) : bitsValue ((s.drop idx).take n) = 0 := by
  have hall : ∀ b ∈ (s.drop idx).take n, b = false := by
    intro b hb
    obtain ⟨k, hk, rfl⟩ := List.mem_iff_getElem.mp (List.mem_of_mem_take hb)
    rw [List.length_drop] at hk
    have hbit := hzero (idx + k) (by omega) (by omega)
    rw [List.getElem_drop]
    exact (List.getElem?_eq_some_iff.mp hbit).2
  rw [List.eq_replicate_of_mem hall, bitsValue_zeros]

/-- Settles O8: the flag bit is 0 or missing, so no literal is read, and both fields of a whole token are 0. -/
theorem paddingReadsAsMatchOrEnd : Obligations.PaddingReadsAsMatchOrEnd := by
  intro P L s pos hzero
  refine ⟨fun hfit => ?_, fun hshort => ?_⟩
  · have hflag := hzero pos le_rfl (by omega)
    rw [decodeBits_of_flag_zero hflag hfit, fieldValue_zeros hzero (by omega), fieldValue_zeros hzero (by omega)]
  · by_cases hend : s.length ≤ pos
    · exact .inl (decodeBits_flag_end P L s pos hend)
    · have hflag := hzero pos le_rfl (by omega)
      by_cases hposition : pos + 1 + P ≤ s.length
      · exact .inr (.inr (decodeBits_endInLength hflag hposition (by omega)))
      · exact .inr (.inl (decodeBits_endInPosition L hflag (by omega)))

/-! ### Listing forms and sample words -/

/-- Settles O9: a flag bit is a field of one bit, and `len - M` is below `2^L` for a length up to DMAX. -/
theorem listingFormsAreTheirTokens : Obligations.ListingFormsAreTheirTokens := by
  intro P L M b p len
  refine ⟨rfl, fun hwf => ?_⟩
  simp only [Listing.wellFormed, Bool.and_eq_true, decide_eq_true_eq] at hwf
  obtain ⟨⟨hp, hmin⟩, hmax⟩ := hwf
  have hfields := Nat.two_pow_pos L
  exact ⟨rfl, Machine.wellFormed_matchRef.mpr ⟨hp, by omega⟩, Nat.sub_add_cancel hmin⟩

/-- Settles O5: the decoder run on six words. -/
theorem sampleWordsDecode : Obligations.SampleWordsDecode := by
  unfold Obligations.SampleWordsDecode
  decide

end Sys2Proof.Laws
end

section
/-! The invariant (10_state.md R29 to R32): reset meets it, every step keeps it, and what follows for a step that the
host leaves to the block and for the output. -/

namespace Sys2Proof.Machine

/-! ### Updates that keep the invariant -/

theorem State.Inv.withSchedule {s : State} (hinv : s.Inv) (moves : List HostMove) : { s with schedule := moves }.Inv :=
  { hinv with }

theorem State.Inv.give {s : State} (hinv : s.Inv) (r : Ret) : (give r s).Inv :=
  { hinv with }

theorem State.Inv.withReader {s : State} (hinv : s.Inv) {pos : Nat} (h : pos ≤ 8 * s.inp.length) :
    { s with bsrPos := pos }.Inv :=
  { hinv with readerPosition := h }

/-- CFG_WRITE is made while not BUSY, where the invariant asks nothing of the configuration but that one is written. -/
theorem State.Inv.withCfg {s : State} (hinv : s.Inv) (hidle : s.status.state ≠ .busy) (c : Cfg) :
    { s with cfg := c, cfgValid := true }.Inv :=
  { hinv with
    configWritten := fun _ => rfl
    busyConfig := fun hb => absurd hb hidle
    busyCursor := fun hb => absurd hb hidle
    busyDict := fun hb => absurd hb hidle }

/-- START of an operation under a written and legal configuration (70_reset_and_hazards.md R221). -/
theorem startOperation_inv {op : Op} {s : State} (hop : op ≠ .none) (hwritten : s.cfgValid = true)
    (hlegal : legal s.par s.cfg = true) (buf : List Byte) : (startOperation op buf s).Inv := by
  obtain ⟨-, -, -, -, hini, -⟩ := legal_ranges hlegal
  exact {
    dictCanonical := rfl
    inputPosition := Nat.zero_le _
    readerPosition := Nat.zero_le _
    outputBound := by cases op <;> simp [outputFits, outputOf, statusStarted, writtenBytes]
    idleStatus := fun h => nomatch h
    busyStatus := fun _ => ⟨hop, rfl⟩
    doneStatus := fun h => nomatch h
    configWritten := fun _ => hwritten
    busyConfig := fun _ => hlegal
    busyCursor := fun _ => hini
    busyDict := fun _ => rfl }

/-- `stop` of a running operation by one of its own causes (10_state.md R31). -/
theorem State.Inv.stop {s : State} (hinv : s.Inv) (hb : s.status.state = .busy) {cause : Term}
    (hcause : (s.status.op = .encode ∧ cause = .inputEnd) ∨ (s.status.op = .decode ∧ cause.IsEndOfStream)) :
    (stop cause s).Inv :=
  { hinv with
    idleStatus := fun h => nomatch h
    busyStatus := fun h => nomatch h
    doneStatus := fun _ => hcause
    configWritten := fun _ => hinv.configWritten (by simp [hb])
    busyConfig := fun h => nomatch h
    busyCursor := fun h => nomatch h
    busyDict := fun h => nomatch h }

/-- A token keeps STATUS and the configuration, and the registers and the dictionary stay in their ranges. -/
theorem State.Inv.token {i : Instr} {s t : State} (hinv : s.Inv)
    (hi : (∃ b, i = .lit b) ∨ (∃ p f, i = .matchRef p f)) (h : exec i s = .next t) : t.Inv := by
  obtain ⟨⟨hcfg, hvalid, hstatus, hinp, hpar, -, -, hreader⟩, hfits, hwf, hbelow, hw, hip, -⟩ := token_next hi h
  exact {
    dictCanonical := hwf hinv.dictCanonical
    inputPosition := by rw [hinp]; exact hip hinv.inputPosition
    readerPosition := by rw [hreader, hinp]; exact hinv.readerPosition
    outputBound := hfits
    idleStatus := by rw [hstatus]; exact hinv.idleStatus
    busyStatus := by rw [hstatus]; exact hinv.busyStatus
    doneStatus := by rw [hstatus]; exact hinv.doneStatus
    configWritten := by rw [hstatus, hvalid]; exact hinv.configWritten
    busyConfig := by rw [hstatus, hpar, hcfg]; exact hinv.busyConfig
    busyCursor := fun hb => by rw [hcfg]; exact hw (hinv.busyCursor (hstatus ▸ hb))
    busyDict := fun hb => by rw [hcfg]; exact hbelow (hinv.busyDict (hstatus ▸ hb)) }

/-! ### Reset and the steps -/

/-- Settles O43: at reset the block is IDLE, with nothing in its registers. -/
theorem invariantHoldsAtReset : Obligations.InvariantHoldsAtReset where
  dictCanonical := rfl
  inputPosition := le_rfl
  readerPosition := le_rfl
  outputBound := rfl
  idleStatus := fun _ => ⟨rfl, rfl⟩
  busyStatus := fun h => nomatch h
  doneStatus := fun h => nomatch h
  configWritten := fun h => absurd rfl h
  busyConfig := fun h => nomatch h
  busyCursor := fun h => nomatch h
  busyDict := fun h => nomatch h

theorem State.Inv.hostOp {op : HostOp} {s t : State} (hinv : s.Inv) (h : exec op.instr s = .next t) : t.Inv := by
  obtain ⟨p, l, m, ini, r, -, hidle, rfl⟩ | ⟨o, buf, hop, -, hwritten, hlegal, rfl⟩ | ⟨r, rfl⟩ := hostOp_next h
  · exact hinv.withCfg hidle _
  · obtain ⟨-, rfl⟩ | ⟨-, rfl⟩ := hop <;> exact startOperation_inv (by simp) hwritten hlegal buf
  · exact hinv.give r

theorem State.Inv.encStep {s t : State} (hinv : s.Inv) (hrun : s.Running .encode) (h : encStep s = .next t) :
    t.Inv := by
  obtain ⟨-, rfl⟩ | ⟨-, i, hi, hx⟩ := encStep_next h
  · exact hinv.stop hrun.1 (.inl ⟨hrun.2, rfl⟩)
  · exact hinv.token (isToken_of_next hi) hx

theorem termOf_isEndOfStream (r : Reject) : (termOf r).IsEndOfStream := by
  cases r <;> simp [termOf, Term.IsEndOfStream]

theorem State.Inv.decStep {s t : State} (hinv : s.Inv) (hrun : s.Running .decode) (h : decStep s = .next t) :
    t.Inv := by
  obtain ⟨r, -, rfl⟩ | ⟨i, pos', hi, hx⟩ := decStep_next h
  · exact (hinv.withReader le_rfl).stop hrun.1 (.inr ⟨hrun.2, termOf_isEndOfStream r⟩)
  · exact (hinv.withReader (fetchToken_ok hi).1).token (isToken_of_fetch hi) hx

/-- Settles O44: the host's transaction, a pause outside an operation and the two token steps keep the invariant. -/
theorem stepKeepsTheInvariant : Obligations.StepKeepsTheInvariant := by
  intro s t hinv h
  obtain ⟨op, rest, -, hx⟩ | ⟨-, -, rfl⟩ | ⟨-, hrun, hx⟩ | ⟨-, hrun, hx⟩ := step_next h
  · exact (hinv.withSchedule rest).hostOp hx
  · exact hinv.withSchedule _
  · exact (hinv.withSchedule s.schedule.tail).encStep hrun hx
  · exact (hinv.withSchedule s.schedule.tail).decStep hrun hx

/-- Settles O46: such a step is stopped by OUT_MAX or not at all, and every output is within a bound that is not set. -/
theorem tokenStepAlwaysCompletes : Obligations.TokenStepAlwaysCompletes := by
  intro s hinv _ hq hbound
  obtain ⟨t, hpar, hnext | htoken⟩ := step_stopsOnlyByOutMax hinv hq
  · exact ⟨t, hnext⟩
  · exact ⟨t, htoken.trans (endToken_fits (outputFits_noBound (by rw [hpar, hbound])))⟩

/-! ### The output -/

/-- `t` has the output of `s`, of either operation, with something or nothing appended. -/
structure OutputExtends (s t : State) : Prop where
  out : ∃ more, t.out = s.out ++ more
  bits : ∃ more, t.bswBits = s.bswBits ++ more

theorem outputExtends_of_eq {s t : State} (hout : t.out = s.out) (hbits : t.bswBits = s.bswBits) :
    OutputExtends s t :=
  ⟨⟨[], by simpa using hout⟩, ⟨[], by simpa using hbits⟩⟩

/-- Only the output fields of the first state matter. -/
theorem OutputExtends.of_same {s u t : State} (h : OutputExtends u t) (hout : u.out = s.out)
    (hbits : u.bswBits = s.bswBits) : OutputExtends s t :=
  ⟨hout ▸ h.out, hbits ▸ h.bits⟩

theorem token_outputExtends {i : Instr} {s t : State} (hi : (∃ b, i = .lit b) ∨ (∃ p f, i = .matchRef p f))
    (h : exec i s = .next t) : OutputExtends s t := by
  obtain ⟨-, -, -, -, -, -, hout, hbits⟩ := token_next hi h
  exact ⟨hout, hbits⟩

/-- While BUSY a transaction that is not refused changes `ret` alone. -/
theorem busy_hostOp_next {op : HostOp} {s t : State} (hb : s.status.state = .busy) (h : exec op.instr s = .next t) :
    ∃ r, t = give r s := by
  obtain ⟨-, -, -, -, -, -, hidle, -⟩ | ⟨-, -, -, hidle, -⟩ | hgive := hostOp_next h
  · exact absurd hb hidle
  · exact absurd hb hidle
  · exact hgive

/-- Settles O54: only START clears the output, and it is refused while BUSY. -/
theorem outputOnlyGrowsDuringOperation : Obligations.OutputOnlyGrowsDuringOperation := by
  intro s t hb h
  have hextends : OutputExtends s t := by
    obtain ⟨op, rest, -, hx⟩ | ⟨-, hidle, -⟩ | ⟨-, -, hx⟩ | ⟨-, -, hx⟩ := step_next h
    · obtain ⟨r, rfl⟩ := busy_hostOp_next (s := { s with schedule := rest }) hb hx
      exact outputExtends_of_eq rfl rfl
    · exact absurd hb hidle
    · obtain ⟨-, rfl⟩ | ⟨-, i, hi, hx⟩ := encStep_next hx
      · exact outputExtends_of_eq rfl rfl
      · exact (token_outputExtends (isToken_of_next hi) hx).of_same rfl rfl
    · obtain ⟨r, -, rfl⟩ | ⟨i, pos', hi, hx⟩ := decStep_next hx
      · exact outputExtends_of_eq rfl rfl
      · exact (token_outputExtends (isToken_of_fetch hi) hx).of_same rfl rfl
  exact ⟨hextends.out, hextends.bits⟩

/-- Settles O55: at DONE no token runs, and of the transactions only START writes the output or STATUS; it leaves
BUSY. -/
theorem outputIsFixedUntilNextStart : Obligations.OutputIsFixedUntilNextStart := by
  intro s t hdone h hdone'
  obtain ⟨op, rest, -, hx⟩ | ⟨-, -, rfl⟩ | ⟨-, hrun, -⟩ | ⟨-, hrun, -⟩ := step_next h
  · obtain ⟨p, l, m, ini, r, -, -, rfl⟩ | ⟨o, buf, -, -, -, -, rfl⟩ | ⟨r, rfl⟩ := hostOp_next hx
    · exact ⟨rfl, rfl⟩
    · exact nomatch hdone'
    · exact ⟨rfl, rfl⟩
  · exact ⟨rfl, rfl⟩
  · exact nomatch hdone.symm.trans hrun.1
  · exact nomatch hdone.symm.trans hrun.1

end Sys2Proof.Machine
end

section
/-! Configuration checks, transactions and the tokens one at a time: what START accepts and refuses, what LIT and MATCH
change and leave, where a token is stopped, and the search under INCLUSIVE. -/

namespace Sys2Proof.Machine

/-! ### START and the host's turn -/

/-- Settles O18: LEGAL is the conjunction of its ranges. -/
theorem legalIsTheStatedRanges : Obligations.LegalIsTheStatedRanges := fun _ _ => legal_iff

theorem start_refusedWith {op : Op} {buf : List Byte} {s : State} {r : Refusal} (h : startRefusal buf s = some r) :
    start op buf s = .refused r := by
  simp only [start, h]

/-- Settles O19: both STARTs refuse by the one list of checks. -/
theorem startRefusesInOrder : Obligations.StartRefusesInOrder := by
  intro buf s i hi
  have hstart {r : Refusal} (h : startRefusal buf s = some r) : exec i s = .refused r := by
    obtain rfl | rfl := hi <;> exact start_refusedWith h
  refine ⟨fun hb => hstart ?_, fun hidle hunwritten => hstart ?_, fun hidle hwritten hillegal => hstart ?_,
    fun hidle hwritten hlegal ⟨k, hbound, hlong⟩ => hstart ?_⟩
  · simp [startRefusal, hb]
  · simp [startRefusal, hidle, hunwritten]
  · simp [startRefusal, hidle, hwritten, hillegal]
  · simp [startRefusal, hidle, hwritten, hlegal, hbound, withinBound, hlong]

/-- Settles O38: a transaction at the head of the schedule is the step, and a block not BUSY only uses up a pause. -/
theorem hostTransactionRunsInItsTurn : Obligations.HostTransactionRunsInItsTurn := fun _ =>
  ⟨fun _ _ => step_transact, fun hq hidle => (step_quiet hq).trans (blockStep_notBusy hidle)⟩

/-! ### LIT and MATCH of a DECODE -/

theorem outputFits_decodedLit {b : Byte} {s : State} (h : s.status.op = .decode) :
    outputFits (decodedLit b s) = withinBound s.par.outMax (s.out.length + 1) := by
  rw [outputFits_decode (by simpa using h)]
  simp

/-- Settles O22: the token fits OUT_MAX, so it answers DEC.LIT's effect, whose one store reads back at `W`. -/
theorem litDecodedAppendsAndStores : Obligations.LitDecodedAppendsAndStores := by
  intro b s hrun hw hwf hout
  have hfits : outputFits (decodedLit b s) = true := (outputFits_decodedLit hrun.2).trans hout
  refine ⟨decodedLit b s, ?_, rfl, fun j => Memory.read_write hwf s.w j b⟩
  rw [execLit_decode_eq hrun hw, endToken_fits hfits]

/-- Settles O25: the bytes are those of DEC.COPY's loop, each read from the memory that the bytes before it were stored
in. -/
theorem matchDecodedWithReuseCopiesByteByByte : Obligations.MatchDecodedWithReuseCopiesByteByByte := by
  intro pos lenf s hrun hr1 hpos hlenf hw hout
  have hr : reuse s.cfg = true := reuse_iff.mpr hr1
  have hfits : outputFits (copyMatch pos (matchLength s.cfg lenf) s) = true :=
    (outputFits_copyMatch hrun.2 hpos fun _ => hw).trans hout
  refine ⟨copiedBytes s.cfg (lenf + s.cfg.m) pos s.w s.dict, copiedBytes_length _ _ _ _ _, ?_,
    copiedBytes_on hr _ pos s.w s.dict hpos⟩
  rw [execMatchRef_decode_eq hrun hpos hlenf fun _ => hw, endToken_fits hfits, copyMatch_eq _ _ s hpos fun _ => hw]
  simp only [hr, if_true, matchLength]

/-! ### The write-back of an ENCODE -/

/-- Settles O27: the match the search chose holds the bytes written back, and under INCLUSIVE it ends below `W`. -/
theorem encoderWriteBackIsIdentity : Obligations.EncoderWriteBackIsIdentity := by
  intro s t p len hrun hinv hs h
  obtain ⟨hp, -, hcursor, -, ⟨hdec, -⟩ | ⟨-, hinput, rfl⟩⟩ := execMatchRef_next h
  · exact nomatch hdec.2.symm.trans hrun.2
  obtain ⟨-, -, hm, -⟩ := legal_ranges (hinv.busyConfig hrun.1)
  obtain ⟨hmin, -⟩ := search_some hs
  refine ⟨fun hr0 => emittedMatch_window_noReuse (reuse_eq_false hr0) hinv.dictCanonical hs hp hinput,
    fun hr1 he => ?_⟩
  have hlen : matchLength s.cfg (len - s.cfg.m) = len := Nat.sub_add_cancel hmin
  have hstores := emittedStores_search hm he hinv.dictCanonical (hinv.busyCursor hrun.1) hs
  rw [emittedMatch_eq hp hinput hcursor, hlen, ← needle, hstores]
  simp [reuse_iff.mpr hr1]

/-! ### The frame of the tokens -/

theorem copyMatch_read_other {pos len a : Nat} {s : State} (hp : pos < dictSize s.cfg)
    (hw : reuse s.cfg = true → s.w < dictSize s.cfg)
    (ha : reuse s.cfg = true → ∀ k, k < len → a ≠ wrapAt s.cfg s.w k) :
    (copyMatch pos len s).dict.read a = s.dict.read a := by
  rw [copyMatch_eq pos len s hp hw]
  cases hr : reuse s.cfg with
  | false => simp
  | true => simpa using storedFrom_read_other (hw hr) (by simpa using ha hr)

theorem emittedMatch_read_other {pos lenf a : Nat} {s : State} (hp : pos < dictSize s.cfg)
    (hn : s.ip + matchLength s.cfg lenf ≤ s.inp.length) (hw : reuse s.cfg = true → s.w < dictSize s.cfg)
    (hq : ∀ k, k < matchLength s.cfg lenf → a ≠ wrapAt s.cfg pos k)
    (ha : reuse s.cfg = true → ∀ k, k < matchLength s.cfg lenf → a ≠ wrapAt s.cfg s.w k) :
    (emittedMatch pos lenf s).dict.read a = s.dict.read a := by
  have hlen : ((s.inp.drop s.ip).take (matchLength s.cfg lenf)).length = matchLength s.cfg lenf := by
    rw [List.length_take, List.length_drop]
    omega
  rw [emittedMatch_eq hp hn hw]
  exact emittedStores_read_other hp hw (by rwa [hlen]) (by rwa [hlen])

/-- Settles O28: what every token keeps, and of each token's effect the fields and cells it does not write. -/
theorem tokenFrame : Obligations.TokenFrame := by
  intro s t
  refine ⟨fun b h => ?_, fun pos lenf h => ?_⟩
  · obtain ⟨⟨hcfg, hvalid, hstatus, hinp, hpar, hret, hschedule, hreader⟩, -⟩ := token_next (.inl ⟨b, rfl⟩) h
    refine ⟨hcfg, hvalid, hstatus, hinp, hpar, hret, hschedule, hreader, ?_⟩
    obtain ⟨-, -, ⟨⟨-, hop⟩, rfl⟩ | ⟨⟨-, hop⟩, -, rfl⟩⟩ := execLit_next h
    · exact ⟨rfl, fun _ => ⟨rfl, rfl⟩, fun hencode => (nomatch hop.symm.trans hencode),
        fun a ha => Memory.read_write_other ha b⟩
    · exact ⟨rfl, fun hdecode => (nomatch hop.symm.trans hdecode), fun _ => rfl,
        fun a ha => Memory.read_write_other ha b⟩
  · obtain ⟨⟨hcfg, hvalid, hstatus, hinp, hpar, hret, hschedule, hreader⟩, -⟩ := token_next (.inr ⟨pos, lenf, rfl⟩) h
    refine ⟨hcfg, hvalid, hstatus, hinp, hpar, hret, hschedule, hreader, ?_⟩
    obtain ⟨hp, -, hw, -, ⟨⟨-, hop⟩, rfl⟩ | ⟨⟨-, hop⟩, hn, rfl⟩⟩ := execMatchRef_next h
    · refine ⟨fun _ => ⟨copyMatch_ip _ _ _, copyMatch_bswBits _ _ _⟩,
        fun hencode => (nomatch hop.symm.trans hencode), fun hr => ?_, fun a _ ha => ?_⟩
      · rw [copyMatch_eq _ _ _ hp hw]
        simp [reuse, hr]
      · exact copyMatch_read_other hp hw fun hr => ha (reuse_iff.mp hr)
    · refine ⟨fun hdecode => (nomatch hop.symm.trans hdecode), fun _ => emittedMatch_out _ _ _, fun hr => ?_,
        fun a hq ha => ?_⟩
      · rw [emittedMatch_eq hp hn hw]
        simp [reuse, hr]
      · exact emittedMatch_read_other hp hn hw (hq hop) fun hr => ha (reuse_iff.mp hr)

/-! ### Where a token is stopped -/

theorem exec_matchRef_illFormed {s : State} {pos lenf : Nat} (hrun : s.Running .decode ∨ s.Running .encode)
    (hwide : 2 ^ s.cfg.p ≤ pos ∨ 2 ^ s.cfg.l ≤ lenf) : exec (.matchRef pos lenf) s = .refused .illFormedToken := by
  have hwf : wellFormed s.cfg.p s.cfg.l (.matchRef pos lenf) = false := by
    rw [Bool.eq_false_iff, ne_eq, wellFormed_matchRef]
    omega
  obtain hrun | hrun := hrun
  · simp [exec, execMatchRef, activeOp_decode.mpr hrun, hwf]
  · simp [exec, execMatchRef, activeOp_encode.mpr hrun, hwf]

/-- Settles O29: each stop is the first test of the token's rule that fails. -/
theorem tokenStopsByName : Obligations.TokenStopsByName := by
  intro s
  refine ⟨fun hidle b pos lenf => ?_, fun pos lenf => exec_matchRef_illFormed, fun hrun b c hc hne => ?_,
    fun hrun hend b => ?_, fun hrun pos lenf hpos hlenf hshort => ?_, fun hrun hw b => ?_⟩
  · have hop := activeOp_notBusy hidle
    exact ⟨by simp only [exec, execLit, hop], by simp only [exec, execMatchRef, hop]⟩
  · simp only [execLit_encode hrun, encLit, hc, if_neg hne]
  · simp only [execLit_encode hrun, encLit, List.getElem?_eq_none hend]
  · have hpast : ¬ s.ip + matchLength s.cfg lenf ≤ s.inp.length := Nat.not_le.mpr hshort
    rw [execMatchRef_encode hrun hpos hlenf, encMatch, if_neg hpast]
  · have hout : ¬ inDict s.cfg s.w = true := inDict_iff.not.mpr (Nat.not_lt.mpr hw)
    rw [execLit_decode hrun, if_neg hout]

theorem withinBound_of_lt {k x : Nat} (h : k < x) : withinBound (some k) x = false := by
  simp [withinBound, h]

/-- Settles O30: every other test passes, and the length of the output after the token is past OUT_MAX. -/
theorem outputPastOutMaxIsRefused : Obligations.OutputPastOutMaxIsRefused := by
  intro s k hbound hw
  refine ⟨fun hrun hlong b => ?_, fun hrun pos lenf hpos hlenf hlong => ?_, fun hrun hlong b hb => ?_,
    fun hrun pos lenf hpos hlenf hinput hlong => ?_⟩
  · rw [execLit_decode_eq hrun hw]
    exact endToken_notFits (by rw [outputFits_decodedLit hrun.2, hbound, withinBound_of_lt hlong])
  · rw [execMatchRef_decode_eq hrun hpos hlenf fun _ => hw]
    exact endToken_notFits (by
      rw [outputFits_copyMatch hrun.2 hpos fun _ => hw, hbound, matchLength, withinBound_of_lt hlong])
  · rw [execLit_encode_eq hrun hb hw]
    exact endToken_notFits (by rw [outputFits_emittedLit hrun.2, hbound, withinBound_of_lt hlong])
  · rw [execMatchRef_encode_eq hrun hpos hlenf hinput fun _ => hw]
    exact endToken_notFits (by rw [outputFits_emittedMatch hrun.2, hbound, withinBound_of_lt hlong])

/-! ### The search under INCLUSIVE -/

/-- Settles O32: an occurrence at a lower offset ends lower, so below an accepted one there is no rejected one. -/
theorem inclusiveTakesLowestCommittedOccurrence : Obligations.InclusiveTakesLowestCommittedOccurrence := by
  intro s p len hr he hlen hinput
  rw [tryLength_eq_some hinput]
  constructor
  · rintro ⟨-, ⟨hoccurs, hlowest⟩, haccepted⟩
    exact ⟨hoccurs, (accepted_inclusive hr he hlen hoccurs.1).mp haccepted,
      fun p' hp' hcommitted => hlowest p' hp' hcommitted.1⟩
  · rintro ⟨hoccurs, hbelow, hlowest⟩
    exact ⟨rfl, ⟨hoccurs, fun p' hp' hoccurs' => hlowest p' hp' ⟨hoccurs', by omega⟩⟩,
      (accepted_inclusive hr he hlen hoccurs.1).mpr hbelow⟩

end Sys2Proof.Machine
end

section
/-! Token steps and their runs (41_encoder.md R121, R132, 42_decoder.md R151, R158): the token each step executes, what
it costs, and how many steps an operation takes when the host leaves it alone. -/

namespace Sys2Proof.Machine

/-! ### The token a DECODE executes -/

theorem step_decode_token {s : State} {i : Instr} {pos' : Nat} (hq : s.HostQuiet) (hrun : s.Running .decode)
    (hread : decode s.cfg.p s.cfg.l s.inp s.bsrPos = .ok (i, pos')) :
    step s = exec i { s.afterPause with bsrPos := pos' } :=
  (step_decode hq hrun).trans (decStep_token (s := s.afterPause) hread)

/-- Settles O35: DEC.STEP on a token that is read. -/
theorem stepExecutesTheTokenRead : Obligations.StepExecutesTheTokenRead :=
  fun _ _ _ => step_decode_token

/-- The state a table word is placed in from reset: a DECODE just started under the table's widths. -/
theorem reset_withFetchWord (nbits w : Nat) : State.reset.withFetchWord nbits w =
    startOperation .decode (tableBuffer tableP tableL nbits w) { State.reset with cfg := tableCfg, cfgValid := true } :=
  rfl

theorem decodeTableWord_eq_some {nbits w : Nat} {i : Instr} (h : decodeTableWord nbits w = some i) :
    ∃ pos', decode tableP tableL (tableBuffer tableP tableL nbits w) 0 = .ok (i, pos') := by
  unfold decodeTableWord at h
  split at h
  · cases h
  · split at h
    · rename_i j pos' hread
      cases h
      exact ⟨pos', hread⟩
    · cases h

/-- Settles O39: the placed word is the token at the cursor of a running DECODE of the invariant, with no OUT_MAX. -/
theorem placedWordIsTheNextInstruction : Obligations.PlacedWordIsTheNextInstruction := by
  intro nbits w i h
  obtain ⟨pos', hread⟩ := decodeTableWord_eq_some h
  rw [reset_withFetchWord]
  have hinv := startOperation_inv (op := .decode) (s := { State.reset with cfg := tableCfg, cfgValid := true })
    (by simp) rfl (by decide) (tableBuffer tableP tableL nbits w)
  obtain ⟨t, ht⟩ := tokenStepAlwaysCompletes _ hinv rfl (hostQuiet_of_nil rfl) rfl
  exact ⟨pos', t, step_decode_token (hostQuiet_of_nil rfl) ⟨rfl, rfl⟩ hread, ht⟩

/-! ### What an encoder's token costs -/

theorem nextToken_wellFormed {s : State} {i : Instr} (hlegal : legal s.par s.cfg = true)
    (hi : nextToken s = some i) : wellFormed s.cfg.p s.cfg.l i = true := by
  obtain ⟨p, len, hs, rfl⟩ | ⟨b, -, -, rfl⟩ := nextToken_cases hi
  · obtain ⟨-, -, -, -, -, -, -, hwf⟩ := encoderFieldsFit s p len hlegal hs
    exact hwf
  · rfl

/-- From `s` the token of the bits `bits` was emitted: they are appended, and `IP` moves over the bytes they stand
for, one for a literal and at least `M` for a match. -/
structure Emitted (s t : State) (bits : Bits) : Prop where
  appended : t.bswBits = s.bswBits ++ bits
  status : t.status = s.status
  ip_le : t.ip ≤ s.inp.length
  cost : (bits.length = 9 ∧ t.ip = s.ip + 1) ∨ (bits.length = 1 + s.cfg.p + s.cfg.l ∧ s.ip + s.cfg.m ≤ t.ip)

theorem exec_nextToken_emitted {s t : State} {i : Instr} (hrun : s.Running .encode)
    (hi : nextToken s = some i) (h : exec i s = .next t) :
    ∃ bits, encode s.cfg.p s.cfg.l i = some bits ∧ Emitted s t bits := by
  obtain ⟨p, len, hs, rfl⟩ | ⟨b, -, -, rfl⟩ := nextToken_cases hi
  · obtain ⟨hp, -, hw, -, ⟨hdec, -⟩ | ⟨-, hinput, rfl⟩⟩ := execMatchRef_next h
    · exact nomatch hdec.2.symm.trans hrun.2
    have hip : (emittedMatch p (len - s.cfg.m) s).ip = s.ip + matchLength s.cfg (len - s.cfg.m) := by
      rw [emittedMatch_eq hp hinput hw]
    refine ⟨_, rfl, by simp, by simp, hip.trans_le hinput, .inr ⟨by simp [Nat.add_assoc], ?_⟩⟩
    rw [hip, matchLength]
    omega
  · obtain ⟨-, -, ⟨hdec, -⟩ | ⟨-, hb, rfl⟩⟩ := execLit_next h
    · exact nomatch hdec.2.symm.trans hrun.2
    obtain ⟨hlt, -⟩ := List.getElem?_eq_some_iff.mp hb
    exact ⟨_, rfl, by simp, by simp, hlt, .inl ⟨by simp, rfl⟩⟩

/-- A step of a running ENCODE before the input's end emits the next token. -/
theorem step_encode_emitted {s t : State} (hq : s.HostQuiet) (hrun : s.Running .encode)
    (hlegal : legal s.par s.cfg = true) (hip : s.ip < s.inp.length) (h : step s = .next t) :
    ∃ i bits, wellFormed s.cfg.p s.cfg.l i = true ∧ encode s.cfg.p s.cfg.l i = some bits ∧ Emitted s t bits := by
  obtain ⟨i, hi⟩ := nextToken_of_lt (s := s.afterPause) hip
  rw [step_encode_token hq hrun hip hi] at h
  obtain ⟨bits, hbits, hemitted⟩ := exec_nextToken_emitted (s := s.afterPause) hrun hi h
  exact ⟨i, bits, nextToken_wellFormed (s := s.afterPause) hlegal hi, hbits,
    hemitted.appended, hemitted.status, hemitted.ip_le, hemitted.cost⟩

theorem Emitted.ip_lt {s t : State} {bits : Bits} (h : Emitted s t bits) (hm : 1 ≤ s.cfg.m) : s.ip < t.ip := by
  obtain ⟨-, hip⟩ | ⟨-, hip⟩ := h.cost <;> omega

theorem State.Inv.minMatch {s : State} (hinv : s.Inv) (hb : s.status.state = .busy) : 1 ≤ s.cfg.m := by
  obtain ⟨-, -, hm, -⟩ := legal_ranges (hinv.busyConfig hb)
  exact hm

/-- Settles O40: the step emits the next token, whose operands fit under a legal configuration. -/
theorem encoderStepAppendsTokenBits : Obligations.EncoderStepAppendsTokenBits := by
  intro s t hq hrun hinv hip h
  obtain ⟨i, bits, hwf, hbits, hemitted⟩ := step_encode_emitted hq hrun (hinv.busyConfig hrun.1) hip h
  exact ⟨i, bits, hwf, hbits, hemitted.appended, hemitted.ip_lt (hinv.minMatch hrun.1), hemitted.ip_le⟩

/-- A literal costs 9 bits for its byte, and a match `1 + P + L` bits for at least `M` bytes. -/
theorem Emitted.cost_bound {s t : State} {bits : Bits} (h : Emitted s t bits) :
    s.cfg.m * bits.length ≤ (t.ip - s.ip) * max (9 * s.cfg.m) (1 + s.cfg.p + s.cfg.l) := by
  obtain ⟨hlen, hip⟩ | ⟨hlen, hip⟩ := h.cost
  · calc s.cfg.m * bits.length = 9 * s.cfg.m := by rw [hlen, Nat.mul_comm]
      _ ≤ max (9 * s.cfg.m) (1 + s.cfg.p + s.cfg.l) := Nat.le_max_left _ _
      _ = (t.ip - s.ip) * _ := by rw [hip, Nat.add_sub_cancel_left, Nat.one_mul]
  · calc s.cfg.m * bits.length = s.cfg.m * (1 + s.cfg.p + s.cfg.l) := by rw [hlen]
      _ ≤ (t.ip - s.ip) * max (9 * s.cfg.m) (1 + s.cfg.p + s.cfg.l) :=
        Nat.mul_le_mul (by omega) (Nat.le_max_right _ _)

/-- Settles O49: the cost of the one token the step emits. -/
theorem encoderStepBitCost : Obligations.EncoderStepBitCost := by
  intro s t hq hinv hrun hip h
  obtain ⟨i, bits, -, -, hemitted⟩ := step_encode_emitted hq hrun (hinv.busyConfig hrun.1) hip h
  refine ⟨by rw [State.Running, hemitted.status]; exact hrun, hemitted.ip_lt (hinv.minMatch hrun.1), ?_⟩
  rw [hemitted.appended, List.length_append, Nat.add_sub_cancel_left]
  exact hemitted.cost_bound

/-! ### What a decoder's token costs -/

/-- The executed token was read: the cursor moves past its bits, 9 or `1 + P + L`, and the output grows by its byte or
by a match's length, from `M` to DMAX. -/
structure Consumed (s t : State) : Prop where
  status : t.status = s.status
  reader : t.bsrPos = s.bsrPos + 9 ∨ t.bsrPos = s.bsrPos + 1 + s.cfg.p + s.cfg.l
  reader_le : t.bsrPos ≤ 8 * s.inp.length
  out : t.out.length = s.out.length + 1 ∨
    s.out.length + s.cfg.m ≤ t.out.length ∧ t.out.length ≤ s.out.length + longestMatch s.cfg

theorem exec_fetched_consumed {s t : State} {i : Instr} {pos' : Nat} (hrun : s.Running .decode)
    (hi : fetchToken s = .ok (i, pos')) (h : exec i { s with bsrPos := pos' } = .next t) : Consumed s t := by
  obtain ⟨hle, ⟨b, rfl, hpos⟩ | ⟨p, f, rfl, hp, hf, hpos⟩⟩ := fetchToken_ok hi
  · obtain ⟨-, -, ⟨-, rfl⟩ | ⟨henc, -⟩⟩ := execLit_next h
    · exact ⟨rfl, .inl hpos, hle, .inl (by simp)⟩
    · exact nomatch henc.2.symm.trans hrun.2
  · obtain ⟨hp, -, hw, -, ⟨-, rfl⟩ | ⟨henc, -⟩⟩ := execMatchRef_next h
    · have hout : (copyMatch p (matchLength s.cfg f) { s with bsrPos := pos' }).out.length =
          s.out.length + matchLength s.cfg f := by
        rw [copyMatch_eq _ _ _ hp hw, List.length_append, copiedBytes_length]
      obtain ⟨hmin, hmax⟩ := Laws.matchLength_range s.cfg hf
      refine ⟨by simp, .inr (by simpa using hpos), by simpa using hle, .inr ?_⟩
      rw [hout, longestMatch]
      omega
    · exact nomatch henc.2.symm.trans hrun.2

/-- A step of a running DECODE stops at the end of the stream or executes the token it reads. -/
theorem step_decode_next {s t : State} (hq : s.HostQuiet) (hrun : s.Running .decode) (h : step s = .next t) :
    (∃ r, t = stopAtEnd r s.afterPause) ∨ Consumed s t := by
  rw [step_decode hq hrun] at h
  obtain ⟨r, -, rfl⟩ | ⟨i, pos', hi, hx⟩ := decStep_next h
  · exact .inl ⟨r, rfl⟩
  · have hconsumed := exec_fetched_consumed (s := s.afterPause) hrun hi hx
    exact .inr ⟨hconsumed.status, hconsumed.reader, hconsumed.reader_le, hconsumed.out⟩

/-- A legal token has at least 3 bits: a flag and two fields of a bit or more (42_decoder.md R158). -/
theorem Consumed.reader_bound {s t : State} (h : Consumed s t) (hlegal : legal s.par s.cfg = true) :
    s.bsrPos + min 9 (1 + s.cfg.p + s.cfg.l) ≤ t.bsrPos ∧ 3 ≤ min 9 (1 + s.cfg.p + s.cfg.l) := by
  obtain ⟨hp, hl, -⟩ := legal_ranges hlegal
  obtain hpos | hpos := h.reader <;> omega

/-- Settles O50: the step has not stopped, so it has executed one token. -/
theorem decoderStepBounds : Obligations.DecoderStepBounds := by
  intro s t hq hinv hrun h hb
  have hlegal := hinv.busyConfig hrun.1
  obtain ⟨r, rfl⟩ | hconsumed := step_decode_next hq hrun h
  · exact nomatch hb
  · obtain ⟨hreader, hthree⟩ := hconsumed.reader_bound hlegal
    have hm := hinv.minMatch hrun.1
    have hfields := Nat.two_pow_pos s.cfg.l
    have hlongest : s.cfg.m ≤ longestMatch s.cfg := by
      rw [longestMatch]
      omega
    refine ⟨hreader, hthree, ?_⟩
    obtain hout | ⟨hmin, hmax⟩ := hconsumed.out <;> omega

/-! ### Runs the host leaves alone -/

/-- An operation of the invariant that the host leaves alone, with no OUT_MAX. -/
structure LeftAlone (op : Op) (s : State) : Prop where
  inv : s.Inv
  running : s.Running op
  noMoves : s.schedule = []
  noBound : s.par.outMax = none

theorem LeftAlone.quiet {op : Op} {s : State} (h : LeftAlone op s) : s.HostQuiet := hostQuiet_of_nil h.noMoves

theorem LeftAlone.completes {op : Op} {s : State} (h : LeftAlone op s) : ∃ t, step s = .next t :=
  tokenStepAlwaysCompletes s h.inv h.running.1 h.quiet h.noBound

/-- While an operation runs, no step of the block touches the schedule but to use up a pause. -/
theorem step_schedule {s t : State} (hq : s.HostQuiet) (h : step s = .next t) : t.schedule = s.schedule.tail := by
  obtain ⟨op, rest, hs, -⟩ | ⟨-, -, rfl⟩ | ⟨-, -, hx⟩ | ⟨-, -, hx⟩ := step_next h
  · exact absurd hs (hq op rest)
  · rfl
  · obtain ⟨-, rfl⟩ | ⟨-, i, hi, hx⟩ := encStep_next hx
    · rfl
    · obtain ⟨⟨-, -, -, -, -, -, hschedule, -⟩, -⟩ := token_next (isToken_of_next hi) hx
      exact hschedule
  · obtain ⟨r, -, rfl⟩ | ⟨i, pos', hi, hx⟩ := decStep_next hx
    · rfl
    · obtain ⟨⟨-, -, -, -, -, -, hschedule, -⟩, -⟩ := token_next (isToken_of_fetch hi) hx
      exact hschedule

theorem LeftAlone.after {op : Op} {s t : State} (h : LeftAlone op s) (hstep : step s = .next t)
    (hstatus : t.status = s.status) : LeftAlone op t where
  inv := stepKeepsTheInvariant s t h.inv hstep
  running := by rw [State.Running, hstatus]; exact h.running
  noMoves := by rw [step_schedule h.quiet hstep, h.noMoves]; rfl
  noBound := by rw [(busy_step_sameConfigAndInput h.running.1 hstep).par]; exact h.noBound

/-- Steps that each end in `Q` or make `left` smaller reach `Q` within one step more than `left`. -/
theorem runSteps_reach {P Q : State → Prop} {left : State → Nat}
    (hstep : ∀ s, P s → ∃ t, step s = .next t ∧ (Q t ∨ P t ∧ left t < left s)) {s : State} (hs : P s) :
    ∃ k t, k ≤ left s + 1 ∧ runSteps k s = .next t ∧ Q t := by
  induction hn : left s using Nat.strong_induction_on generalizing s with
  | _ n ih =>
    obtain ⟨t, ht, hend | ⟨hgoes, hless⟩⟩ := hstep s hs
    · exact ⟨1, t, by omega, runSteps_succ ht, hend⟩
    · obtain ⟨k, u, hk, hrun, hend⟩ := ih (left t) (hn ▸ hless) hgoes rfl
      exact ⟨k + 1, u, by omega, (runSteps_succ ht).trans hrun, hend⟩

/-- A step of an ENCODE ends it at the input's end or consumes an input byte or more. -/
theorem LeftAlone.encode_step {s : State} (h : LeftAlone .encode s) : ∃ t, step s = .next t ∧
    ((t.status = { state := .done, op := .encode, term := .inputEnd } ∧ t.ip = s.inp.length) ∨
      (LeftAlone .encode t ∧ t.inp = s.inp) ∧ t.inp.length - t.ip < s.inp.length - s.ip) := by
  obtain hend | hip := h.inv.inputPosition.eq_or_lt
  · obtain ⟨hstop, -⟩ := stepEmitsOneTokenOrEnds s h.quiet h.running
    exact ⟨_, hstop hend, .inl ⟨rfl, hend⟩⟩
  · obtain ⟨t, ht⟩ := h.completes
    obtain ⟨i, bits, -, -, hemitted⟩ := step_encode_emitted h.quiet h.running (h.inv.busyConfig h.running.1) hip ht
    have hmoved := hemitted.ip_lt (h.inv.minMatch h.running.1)
    have hinp := (busy_step_sameConfigAndInput h.running.1 ht).inp
    exact ⟨t, ht, .inr ⟨⟨h.after ht hemitted.status, hinp⟩, by rw [hinp]; omega⟩⟩

/-- Settles O47: the input bytes left are the measure. -/
theorem encodeEnds : Obligations.EncodeEnds := by
  intro s hinv hrun hmoves hbound
  refine runSteps_reach (P := fun u => LeftAlone .encode u ∧ u.inp = s.inp) (left := fun u => u.inp.length - u.ip)
    (fun u hu => ?_) ⟨⟨hinv, hrun, hmoves, hbound⟩, rfl⟩
  obtain ⟨h, hinp⟩ := hu
  rw [← hinp]
  exact h.encode_step

/-- A step of a DECODE ends it at the end of the stream or consumes three bits or more. -/
theorem LeftAlone.decode_step {s : State} (h : LeftAlone .decode s) : ∃ t, step s = .next t ∧
    ((t.status.state = .done ∧ t.status.op = .decode ∧ t.status.term.IsEndOfStream ∧ t.bsrPos = 8 * s.inp.length) ∨
      (LeftAlone .decode t ∧ t.inp = s.inp) ∧
        (8 * t.inp.length - t.bsrPos) / 3 < (8 * s.inp.length - s.bsrPos) / 3) := by
  obtain ⟨t, ht⟩ := h.completes
  refine ⟨t, ht, ?_⟩
  obtain ⟨r, rfl⟩ | hconsumed := step_decode_next h.quiet h.running ht
  · exact .inl ⟨rfl, h.running.2, termOf_isEndOfStream r, rfl⟩
  · obtain ⟨hreader, hthree⟩ := hconsumed.reader_bound (h.inv.busyConfig h.running.1)
    have hinp := (busy_step_sameConfigAndInput h.running.1 ht).inp
    have hle := hconsumed.reader_le
    exact .inr ⟨⟨h.after ht hconsumed.status, hinp⟩, by rw [hinp]; omega⟩

/-- Settles O48: a third of the bits left is the measure. -/
theorem decodeEnds : Obligations.DecodeEnds := by
  intro s hinv hrun hmoves hbound
  refine runSteps_reach (P := fun u => LeftAlone .decode u ∧ u.inp = s.inp)
    (left := fun u => (8 * u.inp.length - u.bsrPos) / 3) (fun u hu => ?_) ⟨⟨hinv, hrun, hmoves, hbound⟩, rfl⟩
  obtain ⟨h, hinp⟩ := hu
  rw [← hinp]
  exact h.decode_step

end Sys2Proof.Machine
end

section
/-! One token on both sides (42_decoder.md R162): the token an encoder emits, executed by any decoder that has the
encoder's window. -/

namespace Sys2Proof.Machine

/-- After a token, executed from `e` to `e'` and from `d` to `d'`: the windows agree, and the decoder has appended the
input bytes the encoder moved past. -/
def TokenAgrees (e d e' d' : State) : Prop :=
  d'.dict = e'.dict ∧ d'.w = e'.w ∧ e.ip < e'.ip ∧ e'.ip ≤ e.inp.length ∧
    d'.out = d.out ++ (e.inp.drop e.ip).take (e'.ip - e.ip)

theorem tokenAgrees_lit {e d : State} {b : Byte} (hb : e.inp[e.ip]? = some b) (hcfg : d.cfg = e.cfg)
    (hdict : d.dict = e.dict) (hw : d.w = e.w) : TokenAgrees e d (emittedLit b e) (decodedLit b d) := by
  obtain ⟨hlt, rfl⟩ := List.getElem?_eq_some_iff.mp hb
  refine ⟨by simp [hdict, hw], by simp [hcfg, hw], Nat.lt_succ_self _, hlt, ?_⟩
  rw [emittedLit_ip, Nat.add_sub_cancel_left, List.drop_eq_getElem_cons hlt, List.take_succ_cons, List.take_zero,
    decodedLit_out]

theorem tokenAgrees_match {e d : State} {p len : Nat} (hm : 1 ≤ e.cfg.m) (hinclusive : e.par.reuseEnd = .inclusive)
    (hwf : e.dict.wf = true) (hcursor : e.w < dictSize e.cfg) (hs : search e = some (p, len)) (hp : p < dictSize e.cfg)
    (hlen : matchLength e.cfg (len - e.cfg.m) = len) (hcfg : d.cfg = e.cfg) (hdict : d.dict = e.dict)
    (hw : d.w = e.w) : TokenAgrees e d (emittedMatch p (len - e.cfg.m) e) (copyMatch p len d) := by
  obtain ⟨hmin, -, hinput, -⟩ := search_some hs
  have hemit := emittedMatch_eq (lenf := len - e.cfg.m) hp (by omega) fun _ => hcursor
  rw [hlen, ← needle, emittedStores_search hm hinclusive hwf hcursor hs] at hemit
  have hcopy := copyMatch_eq p len d (hcfg ▸ hp) fun _ => by rw [hcfg, hw]; exact hcursor
  rw [hcfg, hdict, hw, copiedBytes_search hm hinclusive hcursor hs] at hcopy
  rw [hcopy, hemit]
  refine ⟨rfl, rfl, ?_, ?_, ?_⟩
  · show e.ip < e.ip + len
    omega
  · show e.ip + len ≤ e.inp.length
    omega
  · simp [needle]

/-- Settles O56: the literal is stored at the same cursor on both sides; the match's copy gives the bytes its search
compared, which both sides store alike. -/
theorem decoderTracksEncoderWindow : Obligations.DecoderTracksEncoderWindow := by
  intro e d i hrun hinv hinclusive _ hi hdrun hcfg hdict hw hbound hdbound
  have hcursor := hinv.busyCursor hrun.1
  have hdcursor : d.w < dictSize d.cfg := by rw [hw, hcfg]; exact hcursor
  obtain ⟨p, len, hs, rfl⟩ | ⟨b, -, hb, rfl⟩ := nextToken_cases hi
  · obtain ⟨-, hp, hmin, -, hinput, -, hlenf, -⟩ := encoderFieldsFit e p len (hinv.busyConfig hrun.1) hs
    have hlen : matchLength e.cfg (len - e.cfg.m) = len := Nat.sub_add_cancel hmin
    have hm := hinv.minMatch hrun.1
    have henc := execMatchRef_encode_eq (lenf := len - e.cfg.m) hrun hp hlenf (by omega) fun _ => hcursor
    have hdec := execMatchRef_decode_eq (s := d) (lenf := len - e.cfg.m) hdrun (hcfg ▸ hp) (hcfg ▸ hlenf)
      fun _ => hdcursor
    rw [endToken_fits (outputFits_noBound (by simpa using hbound))] at henc
    rw [endToken_fits (outputFits_noBound (by simpa using hdbound)), hcfg, hlen] at hdec
    exact ⟨_, _, henc, hdec,
      tokenAgrees_match hm hinclusive hinv.dictCanonical hcursor hs hp hlen hcfg hdict hw⟩
  · have henc := execLit_encode_eq hrun hb hcursor
    have hdec := execLit_decode_eq (b := b) hdrun hdcursor
    rw [endToken_fits (outputFits_noBound (by simpa using hbound))] at henc
    rw [endToken_fits (outputFits_noBound (by simpa using hdbound))] at hdec
    exact ⟨_, _, henc, hdec, tokenAgrees_lit hb hcfg hdict hw⟩

end Sys2Proof.Machine
end

section
/-! Round trip (42_decoder.md R160, R161): a decoder stepped along the encoder's stream, the spurious tokens of the
padding, and a DECODE of a whole ENCODE. -/

namespace Sys2Proof.Machine

/-! ### A decoder stepped along the encoder's stream -/

/-- The host leaves the decoder `d` alone, and its cursor stands after as many bits as the encoder `e` has written. -/
structure ReadsBehind (e d : State) : Prop where
  noMoves : d.schedule = []
  reader : d.bsrPos = e.bswBits.length

theorem DecoderTracks.withReader {e d : State} (h : DecoderTracks e d) (pos : Nat) :
    DecoderTracks e { d with bsrPos := pos } :=
  ⟨h.running, h.noBound, h.cfg, h.dict, h.cursor, h.out⟩

/-- Where the stream goes on with the token the encoder emits, the decoder's step executes it. -/
theorem DecoderTracks.step_token {i : Instr} {e d t : State} {more : Bits} (he : EncoderReady e)
    (hd : DecoderTracks e d) (hr : ReadsBehind e d) (hstream : streamBits d.inp = t.bswBits ++ more)
    (hi : nextToken e = some i) (h : exec i e = .next t) :
    ∃ d', step d = .next d' ∧ DecoderTracks t d' ∧ ReadsBehind t d' ∧ d'.inp = d.inp := by
  obtain ⟨bits, hbits, hemitted⟩ := exec_nextToken_emitted he.running hi h
  have hread : decode d.cfg.p d.cfg.l d.inp d.bsrPos = .ok (i, e.bswBits.length + bits.length) := by
    rw [decode, hstream, hr.reader, hd.cfg, hemitted.appended]
    exact Laws.decodeBits_at_encode (nextToken_wellFormed he.legal hi) hbits _ _
  have hstep := step_decode_token (hostQuiet_of_nil hr.noMoves) hd.running hread
  rw [afterPause_of_nil hr.noMoves] at hstep
  obtain ⟨d', hx, hd'⟩ := (hd.withReader (e.bswBits.length + bits.length)).follow_token he hi h
  obtain ⟨⟨-, -, -, hinp, -, -, hschedule, hreader⟩, -⟩ := token_next (isToken_of_next hi) hx
  refine ⟨d', hstep.trans hx, hd', ⟨hschedule.trans hr.noMoves, ?_⟩, hinp⟩
  rw [hreader, hemitted.appended, List.length_append]

/-- A decoder that tracks the encoder and reads its stream takes a step for each token the encoder's run emits. -/
theorem DecoderTracks.run_steps {k : Nat} {e d t : State} {pad : Bits} (he : EncoderReady e) (hd : DecoderTracks e d)
    (hr : ReadsBehind e d) (hstream : streamBits d.inp = t.bswBits ++ pad) (hrun : runSteps k e = .next t) :
    ∃ j d', runSteps j d = .next d' ∧ DecoderTracks t d' ∧ ReadsBehind t d' ∧ d'.inp = d.inp := by
  induction k generalizing e d with
  | zero => cases hrun; exact ⟨0, d, rfl, hd, hr, rfl⟩
  | succ k ih =>
    obtain ⟨u, hstep, hrest⟩ := runSteps_succ_next hrun
    obtain rfl | ⟨i, hi, hx⟩ := he.step_next hstep
    · have hdone : (stop .inputEnd e).status.state ≠ .busy := by simp [statusStopped]
      rw [runSteps_notBusy hdone he.noMoves] at hrest
      cases hrest
      exact ⟨0, d, rfl, ⟨hd.running, hd.noBound, hd.cfg, hd.dict, hd.cursor, hd.out⟩, ⟨hr.noMoves, hr.reader⟩, rfl⟩
    · obtain ⟨d₀, -, hd₀⟩ := hd.follow_token he hi hx
      obtain ⟨is, -, hbits, -⟩ := hd₀.run_tokens (he.token hi hx) hrest
      have hstream' := hstream
      rw [hbits, List.append_assoc] at hstream'
      obtain ⟨d₁, hstep₁, hd₁, hr₁, hinp₁⟩ := hd.step_token he hr hstream' hi hx
      obtain ⟨j, d', hj, hd', hr', hinp⟩ := ih (he.token hi hx) hd₁ hr₁ (hinp₁ ▸ hstream) hrest
      exact ⟨j + 1, d', (runSteps_succ hstep₁).trans hj, hd', hr', hinp.trans hinp₁⟩

/-- An encoder's run keeps the configuration, the parameters and the empty schedule, and `W` in the dictionary. -/
theorem EncoderReady.run_keeps {k : Nat} {e t : State} (he : EncoderReady e) (hrun : runSteps k e = .next t) :
    SameConfigAndInput e t ∧ t.schedule = [] ∧ t.w < dictSize t.cfg := by
  induction k generalizing e with
  | zero => cases hrun; exact ⟨⟨rfl, rfl, rfl, rfl⟩, he.noMoves, he.cursor⟩
  | succ k ih =>
    obtain ⟨u, hstep, hrest⟩ := runSteps_succ_next hrun
    have hsame := busy_step_sameConfigAndInput he.running.1 hstep
    obtain rfl | ⟨i, hi, hx⟩ := he.step_next hstep
    · have hdone : (stop .inputEnd e).status.state ≠ .busy := by simp [statusStopped]
      rw [runSteps_notBusy hdone he.noMoves] at hrest
      cases hrest
      exact ⟨hsame, he.noMoves, he.cursor⟩
    · obtain ⟨hrest, hkept⟩ := ih (he.token hi hx) hrest
      exact ⟨hrest.after hsame, hkept⟩

/-! ### The padding -/

theorem padBits_zero {s : Bits} {k : Nat} (hk : s.length ≤ k) (hlt : k < (padBits s).length) :
    (padBits s)[k]? = some false := by
  rw [Laws.padBits_length] at hlt
  rw [padBits, List.getElem?_append_right hk, List.getElem?_replicate_of_lt (by omega)]

theorem copyByte_withReader (s : State) (pos : Nat) :
    copyByte { s with bsrPos := pos } = { copyByte s with bsrPos := pos } := by
  simp only [copyByte, reuseStore]
  split <;> rfl

/-- DEC.COPY does not look at the reader's cursor. -/
theorem copyMatch_withReader (p len : Nat) (s : State) (pos : Nat) :
    copyMatch p len { s with bsrPos := pos } = { copyMatch p len s with bsrPos := pos } := by
  have hcommute : Function.Commute copyByte fun u : State => { u with bsrPos := pos } :=
    fun u => copyByte_withReader u pos
  exact hcommute.iterate_left len { s with q := p }

/-- A DECODE the host leaves alone, with no OUT_MAX and its write cursor in the dictionary, that has only zero bits
left from `pos` on. -/
structure OnlyPadding (u : State) (pos : Nat) : Prop where
  running : u.Running .decode
  noMoves : u.schedule = []
  noBound : u.par.outMax = none
  cursor : u.w < dictSize u.cfg
  zeros : ∀ k, pos ≤ k → k < (streamBits u.inp).length → (streamBits u.inp)[k]? = some false

/-- The state after the spurious `MATCH 0, M`. -/
theorem OnlyPadding.exec_match {u : State} {pos : Nat} (h : OnlyPadding u pos) :
    exec (.matchRef 0 0) u = .next (copyMatch 0 u.cfg.m u) := by
  have hfits : outputFits (copyMatch 0 (matchLength u.cfg 0) u) = true :=
    outputFits_noBound (by simpa using h.noBound)
  rw [execMatchRef_decode_eq h.running (dictSize_pos _) (Nat.two_pow_pos _) fun _ => h.cursor, endToken_fits hfits,
    matchLength, Nat.zero_add]

theorem OnlyPadding.withReader {u : State} {pos : Nat} (h : OnlyPadding u pos) (pos' : Nat) :
    OnlyPadding { u with bsrPos := pos' } pos :=
  ⟨h.running, h.noMoves, h.noBound, h.cursor, h.zeros⟩

theorem OnlyPadding.step_match {u : State} {pos : Nat} (h : OnlyPadding u pos)
    (hfit : pos + (1 + u.cfg.p + u.cfg.l) ≤ (streamBits u.inp).length) :
    step { u with bsrPos := pos } =
      .next { copyMatch 0 u.cfg.m u with bsrPos := pos + (1 + u.cfg.p + u.cfg.l) } := by
  obtain ⟨hmatch, -⟩ := Laws.paddingReadsAsMatchOrEnd u.cfg.p u.cfg.l _ _ h.zeros
  have hstep := step_decode_token (s := { u with bsrPos := pos }) (hostQuiet_of_nil h.noMoves) h.running (hmatch hfit)
  rw [afterPause_of_nil (s := { u with bsrPos := pos }) h.noMoves] at hstep
  rw [hstep, (h.withReader _).exec_match]
  exact congrArg Host.Outcome.next (copyMatch_withReader 0 u.cfg.m u _)

theorem OnlyPadding.step_end {u : State} {pos : Nat} (h : OnlyPadding u pos)
    (hshort : (streamBits u.inp).length < pos + (1 + u.cfg.p + u.cfg.l)) :
    ∃ d, step { u with bsrPos := pos } = .next d ∧ d.status.state = .done ∧ d.out = u.out := by
  obtain ⟨-, hend⟩ := Laws.paddingReadsAsMatchOrEnd u.cfg.p u.cfg.l _ _ h.zeros
  have hq : { u with bsrPos := pos }.HostQuiet := hostQuiet_of_nil h.noMoves
  obtain hread | hread | hread := hend hshort <;> exact ⟨_, step_decode_end hq h.running hread, rfl, rfl⟩

theorem OnlyPadding.after_match {u : State} {pos : Nat} (h : OnlyPadding u pos) (n : Nat) :
    OnlyPadding (copyMatch 0 u.cfg.m u) (pos + n) := by
  obtain ⟨-, -, -, -, hw, -⟩ := token_next (.inr ⟨0, 0, rfl⟩) h.exec_match
  refine ⟨by simpa [State.Running] using h.running, by simpa using h.noMoves, by simpa using h.noBound,
    by simpa using hw h.cursor, fun k hk => ?_⟩
  rw [copyMatch_inp]
  exact h.zeros k (by omega)

/-- Over zero bits a DECODE executes `MATCH 0, M` as often as a whole token fits, and stops (42_decoder.md R160). -/
theorem OnlyPadding.run {n : Nat} {u : State} {pos : Nat} (h : OnlyPadding u pos)
    (hn : ((streamBits u.inp).length - pos) / (1 + u.cfg.p + u.cfg.l) = n)
    (hpos : pos ≤ (streamBits u.inp).length) :
    ∃ j d v, runSteps j { u with bsrPos := pos } = .next d ∧ d.status.state = .done ∧
      execAll (List.replicate n (.matchRef 0 0)) u = .next v ∧ d.out = v.out ∧
      v.out.length = u.out.length + n * u.cfg.m := by
  have hwidth (c : Cfg) : 0 < 1 + c.p + c.l := by omega
  induction n generalizing u pos with
  | zero =>
    have hshort := (Nat.div_eq_zero_iff_lt (hwidth _)).mp hn
    obtain ⟨d, hstep, hdone, hout⟩ := h.step_end (by omega)
    exact ⟨1, d, u, runSteps_succ hstep, hdone, rfl, hout, by simp⟩
  | succ n ih =>
    have hfit : 1 + u.cfg.p + u.cfg.l ≤ (streamBits u.inp).length - pos := by
      by_contra hc
      rw [Nat.div_eq_of_lt (by omega)] at hn
      omega
    have hrest : ((streamBits u.inp).length - (pos + (1 + u.cfg.p + u.cfg.l))) / (1 + u.cfg.p + u.cfg.l) = n := by
      rw [Nat.div_eq_sub_div (hwidth _) hfit] at hn
      rw [Nat.sub_add_eq]
      omega
    obtain ⟨j, d, v, hrun, hdone, hall, hout, hlen⟩ := ih (h.after_match (1 + u.cfg.p + u.cfg.l))
      (by simpa using hrest) (by rw [copyMatch_inp]; omega)
    refine ⟨j + 1, d, v, (runSteps_succ (h.step_match (by omega))).trans hrun, hdone, ?_, hout, ?_⟩
    · rw [List.replicate_succ, execAll_cons_of_next h.exec_match, hall]
    · rw [hlen, copyMatch_cfg, copyMatch_eq 0 u.cfg.m u (dictSize_pos _) fun _ => h.cursor, List.length_append,
        copiedBytes_length, Nat.succ_mul]
      omega

/-! ### From START_ENCODE to the end of the DECODE -/

/-- START and the whole ENCODE: it ends at the input's end, in a state of the configuration and parameters given. -/
theorem encode_run {s : State} (x : List Byte) (hwritten : s.cfgValid = true) (hlegal : legal s.par s.cfg = true)
    (hbound : s.par.outMax = none) (hmoves : s.schedule = []) (hinclusive : s.par.reuseEnd = .inclusive) :
    ∃ k e, runSteps k (startOperation .encode x s) = .next e ∧
      e.status = { state := .done, op := .encode, term := .inputEnd } ∧ e.ip = x.length ∧
      SameConfigAndInput (startOperation .encode x s) e ∧ e.schedule = [] := by
  have hinv := startOperation_inv (op := .encode) (by simp) hwritten hlegal x
  obtain ⟨k, e, -, hrun, hstatus, hip⟩ := encodeEnds _ hinv ⟨rfl, rfl⟩ hmoves hbound
  obtain ⟨hsame, hmoves', -⟩ := (encoderReady_start hlegal hinclusive hbound hmoves).run_keeps hrun
  exact ⟨k, e, hrun, hstatus, hip, hsame, hmoves'⟩

/-- The DECODE of the packed bits of an ENCODE's whole run, up to the padding: its output is the input, and only zero
bits are left. -/
theorem decode_run {s e : State} {x : List Byte} {k : Nat} (hlegal : legal s.par s.cfg = true)
    (hinclusive : s.par.reuseEnd = .inclusive) (hbound : s.par.outMax = none) (hmoves : s.schedule = [])
    (hrun : runSteps k (startOperation .encode x s) = .next e) (hip : e.ip = x.length) :
    ∃ j d, runSteps j (startOperation .decode (packBytes e.bswBits) e) = .next d ∧
      d.out = x ∧ d.dict = e.dict ∧ d.w = e.w ∧ d.cfg = s.cfg ∧ d.bsrPos = e.bswBits.length ∧
      d.inp = packBytes e.bswBits ∧ OnlyPadding d d.bsrPos := by
  have he := encoderReady_start (x := x) hlegal hinclusive hbound hmoves
  obtain ⟨⟨hcfg, -, hinp, hpar⟩, hmoves', hw⟩ := he.run_keeps hrun
  have hd : DecoderTracks (startOperation .encode x s) (startOperation .decode (packBytes e.bswBits) e) :=
    ⟨⟨rfl, rfl⟩, (congrArg Params.outMax hpar).trans hbound, hcfg, rfl, congrArg Cfg.i hcfg, rfl⟩
  have hstream : streamBits (packBytes e.bswBits) = padBits e.bswBits := Laws.streamBits_packBytes _
  obtain ⟨j, d, hj, htracks, hbehind, hdinp⟩ := hd.run_steps he ⟨hmoves', rfl⟩ hstream hrun
  have hdstream : streamBits d.inp = padBits e.bswBits := hdinp ▸ hstream
  refine ⟨j, d, hj, ?_, htracks.dict, htracks.cursor, htracks.cfg.trans hcfg, hbehind.reader, hdinp,
    htracks.running, hbehind.noMoves, htracks.noBound, ?_, fun k hk hlt => ?_⟩
  · rw [htracks.out, hinp, hip]
    exact List.take_length
  · rw [htracks.cursor, htracks.cfg]
    exact hw
  · rw [hdstream] at hlt ⊢
    exact padBits_zero (hbehind.reader ▸ hk) hlt

/-- Settles O58: the ENCODE ends, a decoder steps along its stream to the encoder's last state, and the padding that is
left holds no token but `MATCH 0, M`. -/
theorem decodeOfEncodeGivesTheInput : Obligations.DecodeOfEncodeGivesTheInput := by
  intro s x hidle hwritten hlegal hinclusive hin hbound hmoves _
  obtain ⟨k, e, hrun, hstatus, hip, hsame, -⟩ := encode_run x hwritten hlegal hbound hmoves hinclusive
  obtain ⟨j, d₁, hj, hout, hdict, hw, hcfg, hreader, hdinp, hpadding⟩ :=
    decode_run hlegal hinclusive hbound hmoves hrun hip
  obtain ⟨hecfg, hevalid, -, hepar⟩ := hsame
  have houtput : outputOf e = packBytes e.bswBits := outputOf_encode (by rw [hstatus])
  have hstartEncode : exec (.startEncode x) s = .next (startOperation .encode x s) :=
    start_goesAhead hidle hwritten hlegal (by rw [hin]; rfl)
  have hstartDecode : exec (.startDecode (outputOf e)) e = .next (startOperation .decode (packBytes e.bswBits) e) := by
    rw [houtput]
    exact start_goesAhead (by simp [hstatus]) (hevalid.trans hwritten) (by rw [hepar, hecfg]; exact hlegal)
      (by rw [hepar, startOperation_par, hin]; rfl)
  have hstream : (streamBits d₁.inp).length = d₁.bsrPos + padCount e.bswBits.length := by
    rw [hdinp, Laws.streamBits_packBytes, Laws.padBits_length, hreader]
  obtain ⟨j', d, u, hj', hdone, hall, hdout, hlen⟩ := hpadding.run rfl (hstream ▸ Nat.le_add_right _ _)
  rw [hstream, Nat.add_sub_cancel_left, hcfg] at hall hlen
  have hnone (h : padCount e.bswBits.length < 1 + s.cfg.p + s.cfg.l) : d.out = x := by
    rw [Nat.div_eq_of_lt h] at hall
    cases hall
    exact hdout.trans hout
  have hpad := Laws.padCount_lt e.bswBits.length
  exact ⟨_, k, e, _, j, d₁, j', d, u, padCount e.bswBits.length, hstartEncode, hrun, by rw [hstatus], rfl, hstartDecode,
    hj, hout, hdict, hw, hj', hdone, hall, hdout, by rw [hdout, hlen, hout], hnone, fun h => hnone (by omega)⟩

end Sys2Proof.Machine
end

section
/-! What an operation depends on (70_reset_and_hazards.md R222): from two states that differ in `Q` and `ret` alone,
every step has the same outcome, up to `Q` and `ret`. -/

namespace Sys2Proof.Machine

/-! ### `operationView` changes `Q` and `ret` alone -/

@[simp] theorem operationView_cfg (s : State) : (operationView s).cfg = s.cfg := rfl
@[simp] theorem operationView_cfgValid (s : State) : (operationView s).cfgValid = s.cfgValid := rfl
@[simp] theorem operationView_status (s : State) : (operationView s).status = s.status := rfl
@[simp] theorem operationView_w (s : State) : (operationView s).w = s.w := rfl
@[simp] theorem operationView_ip (s : State) : (operationView s).ip = s.ip := rfl
@[simp] theorem operationView_bswBits (s : State) : (operationView s).bswBits = s.bswBits := rfl
@[simp] theorem operationView_bsrPos (s : State) : (operationView s).bsrPos = s.bsrPos := rfl
@[simp] theorem operationView_out (s : State) : (operationView s).out = s.out := rfl
@[simp] theorem operationView_dict (s : State) : (operationView s).dict = s.dict := rfl
@[simp] theorem operationView_inp (s : State) : (operationView s).inp = s.inp := rfl
@[simp] theorem operationView_par (s : State) : (operationView s).par = s.par := rfl
@[simp] theorem operationView_schedule (s : State) : (operationView s).schedule = s.schedule := rfl

/-! ### A match's loop sets `Q` before it uses it -/

/-- Clearing `ret` alone: in the middle of a match's loop `Q` is in use, and the view would lose it. -/
def withoutRet (s : State) : State := { s with ret := .none }

theorem reuseStore_withoutRet (b : Byte) (s : State) : reuseStore b (withoutRet s) = withoutRet (reuseStore b s) := by
  cases hr : reuse s.cfg with
  | false => rw [reuseStore_off b s hr, reuseStore_off b (withoutRet s) hr]
  | true => rw [reuseStore_on b s hr, reuseStore_on b (withoutRet s) hr]; rfl

theorem copyByte_withoutRet (s : State) : copyByte (withoutRet s) = withoutRet (copyByte s) :=
  reuseStore_withoutRet (s.dict.read s.q) { s with out := s.out ++ [s.dict.read s.q], q := cursorNext s.cfg s.q }

theorem emitByte_withoutRet (s : State) : emitByte (withoutRet s) = withoutRet (emitByte s) :=
  congrArg (fun u : State => { u with ip := s.ip + 1 }) (reuseStore_withoutRet (inputByte s)
    { s with dict := s.dict.write s.q (inputByte s), q := cursorNext s.cfg s.q })

theorem copyMatch_view (p len : Nat) (s : State) :
    copyMatch p len (operationView s) = withoutRet (copyMatch p len s) := by
  have hcommute : Function.Commute copyByte withoutRet := copyByte_withoutRet
  exact hcommute.iterate_left len { s with q := p }

theorem emitMatch_view (p len : Nat) (s : State) :
    emitMatch p len (operationView s) = withoutRet (emitMatch p len s) := by
  have hcommute : Function.Commute emitByte withoutRet := emitByte_withoutRet
  exact hcommute.iterate_left len { s with q := p }

theorem emittedMatch_view (pos lenf : Nat) (s : State) :
    emittedMatch pos lenf (operationView s) = withoutRet (emittedMatch pos lenf s) :=
  emitMatch_view pos _ (writeBits lenf s.cfg.l (writeBits pos s.cfg.p (writeBits 0 1 s)))

/-! ### Tokens -/

/-- OUT_MAX looks at the output alone. -/
theorem endToken_view {a b : State} (h : operationView a = operationView b) :
    viewOf (endToken a) = viewOf (endToken b) := by
  have hfits : outputFits (operationView a) = outputFits (operationView b) := congrArg outputFits h
  cases hb : outputFits b with
  | false =>
    have ha : outputFits a = false := hfits.trans hb
    rw [endToken_notFits hb, endToken_notFits ha]
  | true =>
    have ha : outputFits a = true := hfits.trans hb
    rw [endToken_fits hb, endToken_fits ha]
    exact congrArg Host.Outcome.next h

theorem decLit_view (b : Byte) (s : State) : viewOf (decLit b (operationView s)) = viewOf (decLit b s) := by
  rw [decLit, decLit, operationView_cfg, operationView_w]
  split
  · exact endToken_view rfl
  · rfl

theorem encLit_view (b : Byte) (s : State) : viewOf (encLit b (operationView s)) = viewOf (encLit b s) := by
  rw [encLit, encLit, operationView_inp, operationView_ip, operationView_cfg, operationView_w]
  split
  · rfl
  · split
    · split
      · exact endToken_view rfl
      · rfl
    · rfl

theorem decMatch_view (pos lenf : Nat) (s : State) :
    viewOf (decMatch pos lenf (operationView s)) = viewOf (decMatch pos lenf s) := by
  rw [decMatch, decMatch, copyMatch_view, reuseCursorOk, reuseCursorOk, operationView_cfg, operationView_w]
  split
  · exact endToken_view rfl
  · rfl

theorem encMatch_view (pos lenf : Nat) (s : State) :
    viewOf (encMatch pos lenf (operationView s)) = viewOf (encMatch pos lenf s) := by
  rw [encMatch, encMatch, emittedMatch_view, reuseCursorOk, reuseCursorOk, operationView_inp, operationView_ip,
    operationView_cfg, operationView_w]
  split
  · split
    · exact endToken_view rfl
    · rfl
  · rfl

theorem exec_token_view {i : Instr} (hi : (∃ b, i = .lit b) ∨ (∃ p f, i = .matchRef p f)) (s : State) :
    viewOf (exec i (operationView s)) = viewOf (exec i s) := by
  obtain ⟨b, rfl⟩ | ⟨p, f, rfl⟩ := hi
  · rw [exec, exec, execLit, execLit, operationView_status]
    split
    · exact decLit_view b s
    · exact encLit_view b s
    · rfl
  · rw [exec, exec, execMatchRef, execMatchRef, operationView_status, operationView_cfg]
    split
    · split
      · exact decMatch_view p f s
      · rfl
    · split
      · exact encMatch_view p f s
      · rfl
    · rfl

/-! ### Steps -/

theorem search_view (s : State) : search (operationView s) = search s := by
  have hloop (n : Nat) : searchDown (operationView s) n = searchDown s n := by
    induction n with
    | zero => rfl
    | succ n ih => rw [searchDown, searchDown, ih]; rfl
  exact hloop _

theorem nextToken_view (s : State) : nextToken (operationView s) = nextToken s := by
  rw [nextToken, nextToken, search_view]
  rfl

theorem encStep_view (s : State) : viewOf (encStep (operationView s)) = viewOf (encStep s) := by
  rw [encStep, encStep, nextToken_view, operationView_ip, operationView_inp]
  split
  · rfl
  · split
    · rename_i i hi
      exact exec_token_view (isToken_of_next hi) s
    · rfl

theorem decStep_view (s : State) : viewOf (decStep (operationView s)) = viewOf (decStep s) := by
  cases hi : fetchToken s with
  | error r =>
    rw [decStep_end hi, decStep_end (s := operationView s) hi]
    rfl
  | ok token =>
    obtain ⟨i, pos'⟩ := token
    rw [decStep_token hi, decStep_token (s := operationView s) hi]
    exact exec_token_view (isToken_of_fetch hi) { s with bsrPos := pos' }

theorem blockStep_view (s : State) : viewOf (blockStep (operationView s)) = viewOf (blockStep s) := by
  rw [blockStep, blockStep, operationView_status]
  split
  · rfl
  · rfl
  · split
    · exact encStep_view s
    · exact decStep_view s
    · rfl

/-- A transaction tests and writes neither `Q` nor `ret`, but for the value it hands back in `ret`. -/
theorem hostOp_view (op : HostOp) (s : State) :
    viewOf (exec op.instr (operationView s)) = viewOf (exec op.instr s) := by
  have hstart (o : Op) (buf : List Byte) : viewOf (start o buf (operationView s)) = viewOf (start o buf s) := by
    rw [start, start, startRefusal, startRefusal, operationView_status, operationView_cfgValid, operationView_cfg,
      operationView_par]
    split <;> rfl
  cases op with
  | cfgWrite p l m ini r =>
    rw [HostOp.instr, exec, exec, execCfgWrite, execCfgWrite, operationView_status]
    split <;> rfl
  | cfgRead =>
    rw [HostOp.instr, exec, exec, execCfgRead, execCfgRead, operationView_cfgValid]
    split <;> rfl
  | startEncode buf => exact hstart .encode buf
  | startDecode buf => exact hstart .decode buf
  | statusRead => rfl
  | outRead =>
    rw [HostOp.instr, exec, exec, execOutRead, execOutRead, operationView_status]
    split <;> rfl

theorem step_view (s : State) : viewOf (step (operationView s)) = viewOf (step s) := by
  obtain hq | ⟨op, rest, hs⟩ := hostQuiet_or_transact s
  · rw [step_quiet hq, step_quiet (s := operationView s) hq]
    exact blockStep_view s.afterPause
  · rw [step_transact hs, step_transact (s := operationView s) hs]
    exact hostOp_view op { s with schedule := rest }

/-! ### Runs -/

/-- Outcomes of the same view are both a next state, or the same stop. -/
theorem viewOf_eq_cases {x y : Result} (h : viewOf x = viewOf y) :
    (∃ s t, x = .next s ∧ y = .next t ∧ operationView s = operationView t) ∨
    (∃ f, x = .fault f ∧ y = .fault f) ∨ (∃ r, x = .refused r ∧ y = .refused r) := by
  cases x with
  | next s =>
    cases y with
    | next t => exact .inl ⟨s, t, rfl, rfl, Host.Outcome.next.inj h⟩
    | fault f => cases h
    | refused r => cases h
  | fault f =>
    cases y with
    | next t => cases h
    | fault g => cases h; exact .inr (.inl ⟨f, rfl, rfl⟩)
    | refused r => cases h
  | refused r =>
    cases y with
    | next t => cases h
    | fault f => cases h
    | refused q => cases h; exact .inr (.inr ⟨r, rfl, rfl⟩)

theorem coreRun_succ_fault {M : Host.Core} {k : Nat} {s : M.State} {f : M.Fault} (h : M.step s = .fault f) :
    M.run (k + 1) s = .fault f := by
  rw [Host.Core.run, h]

theorem coreRun_succ_refused {M : Host.Core} {k : Nat} {s : M.State} {r : M.Refusal} (h : M.step s = .refused r) :
    M.run (k + 1) s = .refused r := by
  rw [Host.Core.run, h]

theorem runSteps_view (k : Nat) {a b : State} (h : operationView a = operationView b) :
    viewOf (runSteps k a) = viewOf (runSteps k b) := by
  induction k generalizing a b with
  | zero => exact congrArg Host.Outcome.next h
  | succ k ih =>
    have hstep : viewOf (step a) = viewOf (step b) := by rw [← step_view a, h, step_view b]
    obtain ⟨s, t, ha, hb, hnext⟩ | ⟨f, ha, hb⟩ | ⟨r, ha, hb⟩ := viewOf_eq_cases hstep
    · rw [runSteps_succ ha, runSteps_succ hb]
      exact ih hnext
    · exact congrArg viewOf ((coreRun_succ_fault (M := core) ha).trans (coreRun_succ_fault (M := core) hb).symm)
    · exact congrArg viewOf ((coreRun_succ_refused (M := core) ha).trans (coreRun_succ_refused (M := core) hb).symm)

/-- START sets every field that the view shows but the configuration, the parameters and the schedule. -/
theorem startOperation_view {a b : State} (op : Op) (buf : List Byte) (hcfg : a.cfg = b.cfg)
    (hvalid : a.cfgValid = b.cfgValid) (hpar : a.par = b.par) (hmoves : a.schedule = b.schedule) :
    operationView (startOperation op buf a) = operationView (startOperation op buf b) := by
  simp [operationView, startOperation, initOperation, hcfg, hvalid, hpar, hmoves]

/-- Settles O59: both runs begin in states of the same view, and a step's outcome shows nothing else. -/
theorem operationDependsOnConfigAndInputOnly : Obligations.OperationDependsOnConfigAndInputOnly := by
  intro a b op buf k hcfg hvalid hpar ha hb
  exact runSteps_view k (startOperation_view op buf hcfg hvalid hpar (ha.trans hb.symm))

end Sys2Proof.Machine
end
